-- ==== Sys2Proof/Word.lean ====
section
/-! DEFINITION. The bit-vector widths the spec gives the block's values (spec/00_scope.md R5, R7). -/

namespace Sys2Proof

/-- A command word or a host register: 32 bits (30_encoding.md R80, 10_state.md section 2). -/
abbrev Word := BitVec 32

/-- A symbol value (SYMW = 16), a node index (IDXW = 16) or a count register (00_scope.md R5). -/
abbrev Half := BitVec 16

/-- One code-length entry (LENW = 8, 00_scope.md R5). -/
abbrev Byte := BitVec 8

end Sys2Proof
end

