-- ==== Sys2Proof/Syntax.lean ====
section
/-! DEFINITION. The eight commands of spec/opcode_table.json (30_encoding.md R82), as their assembler forms (R87). -/

namespace Sys2Proof

/-- A command. Operands are the counts and indexes of the assembler syntax (R87), so natural numbers;
WellFormed.lean says which fit their fields. -/
inductive Instr where
  /-- `NOP` (40_config_commands.md R100). -/
  | nop
  /-- `SETN n` (R101). -/
  | setn (n : Nat)
  /-- `LDLEN index, length` (R102). -/
  | ldlen (index length : Nat)
  /-- `RDLEN index` (R103). -/
  | rdlen (index : Nat)
  /-- `BUILD` (41_build.md R130). -/
  | build
  /-- `DECODE` (42_decode.md R180). -/
  | decode
  /-- `DISCARD` (R104). -/
  | discard
  /-- `RDNODE index` (43_debug.md R210). -/
  | rdnode (index : Nat)
  deriving DecidableEq, Repr

end Sys2Proof
end

