-- ==== Sys2Proof/WellFormed.lean ====
section
/-! DEFINITION. Which commands have an encoding: "An operand out of its field's range (n, index > 65535;
length > 255) is an assembly error, not an encoding" (30_encoding.md R87). -/

namespace Sys2Proof

/-- An X operand fits its 16-bit field (R80, R81). -/
def xFits (x : Nat) : Bool := decide (x < 65536)

/-- An L operand fits its 8-bit field (R80, R81). -/
def lFits (l : Nat) : Bool := decide (l < 256)

/-- Every operand fits its field. -/
def Instr.wf : Instr → Bool
  | .nop => true
  | .setn n => xFits n
  | .ldlen i l => xFits i && lFits l
  | .rdlen i => xFits i
  | .build => true
  | .decode => true
  | .discard => true
  | .rdnode i => xFits i

/-- `i` is well-formed. -/
abbrev Instr.WellFormed (i : Instr) : Prop := i.wf = true

end Sys2Proof
end

