-- ==== Sys2Proof/Decode.lean ====
section
/-! DEFINITION. The command word: its fields, the decoder of 30_encoding.md R86, and the encoder of R80, R82. -/

namespace Sys2Proof

/-- `OP = w[31:28]` (R80). -/
def fieldOp (w : Word) : BitVec 4 := w.extractLsb' 28 4

/-- `Z = w[27:24]` (R80). -/
def fieldZ (w : Word) : BitVec 4 := w.extractLsb' 24 4

/-- `L = w[23:16]` (R80, R81). -/
def fieldL (w : Word) : Byte := w.extractLsb' 16 8

/-- `X = w[15:0]` (R80, R81). -/
def fieldX (w : Word) : Half := w.extractLsb' 0 16

/-- Why a word is illegal (R83, R84); every reason raises the one error ILLEGAL. -/
inductive Illegal where
  /-- OP in 0x8..0xF (R84). -/
  | reservedOp
  /-- A nonzero bit in Z, which "must be zero in every command" (R80, R83). -/
  | nonzeroZ
  /-- A nonzero bit in an operand field that the command does not have (R82, R83). -/
  | nonzeroOperand
  deriving DecidableEq, Repr

/-- A command with no operands: L and X must be zero (R82). -/
def plainCommand (i : Instr) (w : Word) : Except Illegal Instr :=
  if fieldL w = 0#8 ∧ fieldX w = 0#16 then .ok i else .error .nonzeroOperand

/-- A command whose one operand is X: L must be zero (R82). -/
def indexCommand (f : Nat → Instr) (w : Word) : Except Illegal Instr :=
  if fieldL w = 0#8 then .ok (f (fieldX w).toNat) else .error .nonzeroOperand

/-- The decoding procedure R86, in its order (R225, items 3 and 4): total on every 32-bit word. -/
def decodeWord (w : Word) : Except Illegal Instr :=
  if 8 ≤ (fieldOp w).toNat then .error .reservedOp
  else if fieldZ w ≠ 0#4 then .error .nonzeroZ
  else match (fieldOp w).toNat with
    | 0 => plainCommand .nop w
    | 1 => indexCommand .setn w
    | 2 => .ok (.ldlen (fieldX w).toNat (fieldL w).toNat)
    | 3 => indexCommand .rdlen w
    | 4 => plainCommand .build w
    | 5 => plainCommand .decode w
    | 6 => plainCommand .discard w
    | 7 => indexCommand .rdnode w
    | _ => .error .reservedOp

/-- The OP value of each command (R82). -/
def opcode : Instr → BitVec 4
  | .nop => 0x0#4
  | .setn _ => 0x1#4
  | .ldlen _ _ => 0x2#4
  | .rdlen _ => 0x3#4
  | .build => 0x4#4
  | .decode => 0x5#4
  | .discard => 0x6#4
  | .rdnode _ => 0x7#4

/-- The format `C` (R80): OP, Z = 0, L, X, from the most significant field down. -/
def packWord (op : BitVec 4) (l : Byte) (x : Half) : Word := op ++ 0#4 ++ l ++ x

/-- The word of a command (R82, R89); of an operand that does not fit its field only the low bits are taken. -/
def encode : Instr → Word
  | .nop => packWord 0x0#4 0 0
  | .setn n => packWord 0x1#4 0 (BitVec.ofNat 16 n)
  | .ldlen i l => packWord 0x2#4 (BitVec.ofNat 8 l) (BitVec.ofNat 16 i)
  | .rdlen i => packWord 0x3#4 0 (BitVec.ofNat 16 i)
  | .build => packWord 0x4#4 0 0
  | .decode => packWord 0x5#4 0 0
  | .discard => packWord 0x6#4 0 0
  | .rdnode i => packWord 0x7#4 0 (BitVec.ofNat 16 i)

/-- The command word whose low `nbits` bits are `w`'s and whose other bits are zero. A command is one 32-bit
word handed over as a number: there is no byte order to apply (20_memory.md R62). -/
def tableWord (nbits w : Nat) : Word := BitVec.ofNat 32 (w % 2 ^ nbits)

/-- The command this decoder reads from a row's bits; none where the word is illegal or the row is wider than a
command. -/
def decodeTableWord (nbits w : Nat) : Option Instr :=
  if nbits ≤ 32 then (decodeWord (tableWord nbits w)).toOption else none

end Sys2Proof
end

