-- ==== Sys2Proof/Config.lean ====
section
/-! DEFINITION. The implementation parameters of spec/00_scope.md R5 and the free values of the model. -/

namespace Sys2Proof

/-- `HOST_BYTE_ORDER`, OPEN, "with no effect on any rule of this spec" (20_memory.md R62). -/
inductive ByteOrder where
  | little
  | big
  deriving DecidableEq, Repr

/-- The parameters that the spec leaves OPEN (00_scope.md R5, 20_memory.md R60 and R62).
State holds one value of this type and no step changes it: a statement over all states is a statement over
all parameters (log entry 1). `T_BUILD` and `T_STEP` are timing, which no rule depends on (log entry 2). -/
structure Config where
  /-- `NSYM_MAX`: the number of LEN entries. -/
  nsymMax : Nat
  /-- `HTB_BASE`: where the platform puts the register window. -/
  htbBase : Nat
  /-- `HOST_BYTE_ORDER`: the platform's; no rule reads it. -/
  hostByteOrder : ByteOrder
  deriving DecidableEq, Repr

/-- The legal configurations: "2 <= NSYM_MAX <= 65535" (00_scope.md R5). -/
abbrev Config.WellFormed (c : Config) : Prop := 2 ≤ c.nsymMax ∧ c.nsymMax ≤ 65535

/-- `NODE_CAP = NSYM_MAX - 1` (00_scope.md R5). -/
def Config.nodeCap (c : Config) : Nat := c.nsymMax - 1

/-- The spec's default `NSYM_MAX = 258` (00_scope.md R5). The base address and the byte order are the
platform's; zero and little are DESIGN CHOICE, log entry 3. -/
def Config.standard : Config := { nsymMax := 258, htbBase := 0, hostByteOrder := .little }

/-- `SENT`: "the leaf sentinel index" (00_scope.md R5). -/
def sent : Half := 0xFFFF#16

/-- `REV`, the value of `ID.REV` (10_state.md R30). -/
def rev : Byte := 0x01#8

/-- `MAXLEN`, as the ID register shows it (10_state.md R30). -/
def maxlen : Byte := 0x20#8

/-- One entry of NODES (10_state.md R33). LEFT is taken on input bit 1, RIGHT on input bit 0. -/
structure Node where
  lidx : Half
  ridx : Half
  lval : Half
  rval : Half
  deriving DecidableEq, Repr, Inhabited

/-- FREE VALUE (log entry 4): what the n-th read of an unwritten LEN entry yields, "a free draw of any 8-bit
value, under no law, drawn independently at each read" (10_state.md R39). -/
opaque Config.freeLen : Nat → Byte

/-- FREE VALUE (log entry 5): the content of a NODES entry that no BUILD has written since reset, "unspecified"
(10_state.md R33). -/
opaque Config.freeNode : Nat → Node

/-- FREE VALUE (log entry 6): the bit at a position of an infinite stream (42_decode.md R183: "a finite or infinite
sequence of bits"). -/
opaque Config.streamBit : Nat → Bool

end Sys2Proof
end

