-- ==== Sys2Proof/Machine/State.lean ====
section
/-! DEFINITION. The state of the block and of the agents around it, and the state after reset
(spec/10_state.md R21 to R41, 42_decode.md R183, 70_reset_and_hazards.md R260). -/

namespace Sys2Proof.Machine

/-- The control state `st` (10_state.md R22). -/
inductive Ctl where
  | idle
  | building
  | decoding
  | halted
  deriving DecidableEq, Repr

/-- The values of STATUS.ERR (60_exceptions.md R220); "codes 8..15 are never produced". -/
inductive ErrCode where
  | ok
  | contract
  | empty
  | equal
  | trunc
  | notree
  | index
  | illegal
  deriving DecidableEq, Repr

/-- A PAIRS entry (10_state.md R35). -/
structure Pair where
  length : Byte
  symbol : Half
  deriving DecidableEq, Repr

/-- A CODES entry, "a triple" (10_state.md R35). -/
structure Triple where
  code : Word
  clen : Byte
  symbol : Half
  deriving DecidableEq, Repr

/-- What the bit source does once the listed bits are used up: it signals exhaustion, the stream goes on without end
(42_decode.md R183), or it never answers (70_reset_and_hazards.md R267). -/
inductive StreamTail where
  | eos
  | endless
  | silent
  deriving DecidableEq, Repr

/-- The bit source (42_decode.md R183): the stream `S` is `bits` and then what `tail` says; `pos` is the number of
bits delivered. It is no part of the block's state (10_state.md R37, R41). -/
structure BitSource where
  bits : List Bool
  pos : Nat
  tail : StreamTail
  deriving DecidableEq, Repr

/-- One operation of the host (20_memory.md R61, R62; 30_encoding.md R88). -/
inductive HostOp where
  /-- `MemRead(addr, size)`. -/
  | memRead (addr size : Nat)
  /-- `MemWrite(addr, size, v)`. -/
  | memWrite (addr size : Nat) (v : Word)
  /-- `WAIT`: repeat `RD STATUS` until BUSY = 0 (R88). -/
  | wait
  deriving DecidableEq, Repr

/-- Who moves next: an agent of 00_scope.md R6 (the bit source answers inside the block's step, R182), or the reset
input (70_reset_and_hazards.md R261). -/
inductive Turn where
  | host
  | block
  | reset
  deriving DecidableEq, Repr

/-- Everything that a step reads or writes. The block's own state is the tuple of 10_state.md R41; then stand the bit
source, the host and the order of the agents' moves, which the model needs to be one deterministic step (log entries 7
and 8). STATUS.BUSY and STATUS.HALTED are functions of `st` and the registers CMD and ID hold nothing (R41). -/
structure State where
  /-- The implementation parameters; no step changes them (00_scope.md R5, 10_state.md R30). -/
  cfg : Config
  /-- The control state (10_state.md R22). -/
  st : Ctl
  /-- STATUS.TREE_VALID (R23, R38). -/
  treeValid : Bool
  /-- STATUS.RESULT_VALID (R23). -/
  resultValid : Bool
  /-- STATUS.OVERRUN (R23, 60_exceptions.md R223). -/
  overrun : Bool
  /-- STATUS.ERR (R23, 60_exceptions.md R220). -/
  err : ErrCode
  /-- STATUS.LASTOP (R23). -/
  lastop : BitVec 4
  /-- RESULT[15:0], `RVAL` (R24). -/
  rval : Half
  /-- NSYM[15:0] (R25). -/
  nsym : Half
  /-- NNODES[15:0] (R26). -/
  nnodes : Half
  /-- BITCNT[5:0] (R27). -/
  bitcnt : BitVec 6
  /-- NODE_IDX (R28). -/
  nodeIdx : Word
  /-- NODE_VAL (R29). -/
  nodeVal : Word
  /-- LEN: the entries written since reset, by index (R32, R39); canonical form `Memory.wf`. -/
  len : List Host.Cell
  /-- NODES: the entries written since reset, by index (R33); canonical form `Memory.wf`. -/
  nodes : List (Nat × Node)
  /-- NEXT_NODE (R34). -/
  nextNode : Half
  /-- PAIRS, which exists only while BUILD computes (R35, log entry 9). -/
  pairs : List Pair
  /-- CODES, which exists only while BUILD computes (R35, log entry 9). -/
  codes : List Triple
  /-- CUR (R36). -/
  cur : Half
  /-- The bit source (42_decode.md R183). -/
  source : BitSource
  /-- The host's operations still to come, oldest first. -/
  host : List HostOp
  /-- Whose move each next step is; when the list is used up `step` says who moves. -/
  turns : List Turn
  /-- What the host's reads returned, newest first. -/
  hostReads : List Word
  /-- How many free draws of LEN entries have been made: the MODEL's own counter (log entry 4). -/
  draws : Nat
  deriving DecidableEq, Repr

/-- Why a step stops the machine. -/
inductive Fault where
  /-- Raised by `step` when the block is HALTED and neither the host nor the reset input has anything to do
  (60_exceptions.md R222: "A model treats HALTED as a fault state: never final, never cleared by a later step of the
  block"; 93_implementation_defined.md section 2). Safe: the block would stand still. -/
  | halted
  deriving DecidableEq, Repr

/-- Why a step has no meaning. -/
inductive Refusal where
  /-- Raised by `exec` for a command without a meaning: none is left. Safe. -/
  | notModelled (mnemonic : String)
  /-- Raised by `hostStep` for a host access that is not one aligned 32-bit word of the register window: "outside what
  this spec describes" (20_memory.md R62; 93_implementation_defined.md section 2: `refuse`). Safe. -/
  | hostAccessOutsidePort
  deriving DecidableEq, Repr

/-- The bit source of the state after reset: the stream is "a parameter of the run" (R183); the empty one stands here
(DESIGN CHOICE, log entry 6). -/
def BitSource.exhausted : BitSource := { bits := [], pos := 0, tail := .eos }

/-- The state right after reset (70_reset_and_hazards.md R260), with the default parameters (R5), no stream, no host
operation to come and no free draw made (log entries 3, 4, 6, 7). -/
def State.reset : State where
  cfg := Config.standard
  st := .idle
  treeValid := false
  resultValid := false
  overrun := false
  err := .ok
  lastop := 0
  rval := 0
  nsym := 0
  nnodes := 0
  bitcnt := 0
  nodeIdx := 0
  nodeVal := 0
  len := []
  nodes := []
  nextNode := 0
  pairs := []
  codes := []
  cur := 0
  source := BitSource.exhausted
  host := []
  turns := []
  hostReads := []
  draws := 0

end Sys2Proof.Machine
end

