-- ==== Sys2Proof/Machine/Ops.lean ====
section
/-! DEFINITION. The shared operations: sparse arrays, LEN and NODES, accepting a command, raising an error, reading
the bit source, and the reset input. -/

namespace Sys2Proof.Machine

/-! ### Sparse arrays: the entries written since reset, by index, strictly rising -/

/-- The entry at `a`; none where it has not been written since reset. -/
def Memory.read {α : Type} : List (Nat × α) → Nat → Option α
  | [], _ => none
  | (b, v) :: m, a => if a = b then some v else Memory.read m a

/-- Writes `v` at `a`, keeping the order. -/
def Memory.write {α : Type} : List (Nat × α) → Nat → α → List (Nat × α)
  | [], a, v => [(a, v)]
  | (b, u) :: m, a, v =>
    if a < b then (a, v) :: (b, u) :: m
    else if a = b then (a, v) :: m
    else (b, u) :: Memory.write m a v

/-- The canonical form: indexes strictly rising. An unlisted entry holds no defined value (10_state.md R39, R33), so no
listed entry equals what an unlisted one reads as, and equal arrays are equal lists. -/
def Memory.wf {α : Type} : List (Nat × α) → Bool
  | [] => true
  | [_] => true
  | (a, _) :: (b, v) :: m => decide (a < b) && Memory.wf ((b, v) :: m)

/-- Every listed index is below `cap`, the array's number of entries. -/
def Memory.below {α : Type} (cap : Nat) (m : List (Nat × α)) : Bool := m.all fun e => decide (e.1 < cap)

/-! ### LEN (10_state.md R32, R39) -/

/-- One read of `LEN[i]` when `draws` free draws have been made: its value and the draws made after it. -/
def lenValue (m : List Host.Cell) (draws i : Nat) : Byte × Nat :=
  match Memory.read m i with
  | some v => (v, draws)
  | none => (Config.freeLen draws, draws + 1)

/-- The value that reading `LEN[i]` gives in `s`. -/
def State.readLen (s : State) (i : Nat) : Byte := (lenValue s.len s.draws i).1

/-- `s` after reading `LEN[i]`: reading an unwritten entry uses up a free draw, nothing else changes. -/
def State.afterReadLen (s : State) (i : Nat) : State := { s with draws := (lenValue s.len s.draws i).2 }

/-- `LEN[i] <- v`. -/
def State.writeLen (s : State) (i : Nat) (v : Byte) : State := { s with len := Memory.write s.len i v }

/-! ### NODES (10_state.md R33) -/

/-- `NODES[i]`; an entry that no BUILD has written since reset holds an unspecified value (log entry 5). -/
def nodeAt (m : List (Nat × Node)) (i : Nat) : Node := (Memory.read m i).getD (Config.freeNode i)

/-! ### A command's beginning and an error -/

/-- Acceptance, "the first action of every command" (60_exceptions.md R224). -/
def State.accept (s : State) (op : BitVec 4) : State :=
  { s with lastop := op, err := .ok, resultValid := false }

/-- Where an error leaves the control state (R221): "st <- IDLE, except CONTRACT which sets st <- HALTED". -/
def ctlAfter : ErrCode → Ctl
  | .contract => .halted
  | _ => .idle

/-- `raise Err(code)` (R221): the one way a command ends in an error. Nothing else is saved and control goes nowhere
(R228); the next accepted command clears it (R224). -/
def State.raise (s : State) (code : ErrCode) : State :=
  { s with err := code, st := ctlAfter code }

/-- The tree is discarded: the first two lines of BUILD (41_build.md R130), and DISCARD (R104). -/
def State.dropTree (s : State) : State := { s with treeValid := false, nnodes := 0 }

/-- A successful DECODE or RDLEN leaves its value (10_state.md R24). -/
def State.setResult (s : State) (v : Half) : State := { s with rval := v, resultValid := true }

/-- An accepted word that spells no command raises ILLEGAL "and has no other effect" (30_encoding.md R83, R84). -/
def State.illegal (s : State) (op : BitVec 4) : State := (s.accept op).raise .illegal

/-! ### The bit source (42_decode.md R183) -/

/-- An answer of the bit source to `ReadBit()`, or none: it is not answering (70_reset_and_hazards.md R267). -/
inductive Answer where
  | bit (b : Bool)
  | eos
  | pending
  deriving DecidableEq, Repr

/-- What `ReadBit()` returns. -/
def BitSource.answer (b : BitSource) : Answer :=
  match b.bits[b.pos]? with
  | some v => .bit v
  | none =>
    match b.tail with
    | .eos => .eos
    | .endless => .bit (Config.streamBit b.pos)
    | .silent => .pending

/-- The source after a `BIT` answer: that bit is consumed. -/
def BitSource.advance (b : BitSource) : BitSource := { b with pos := b.pos + 1 }

/-- The bits of a byte in the order the collaborator delivers them: "bit 7 of each byte is delivered before bit 6"
(20_memory.md R65). -/
def bitsOfByte (b : Byte) : List Bool :=
  [b.getLsbD 7, b.getLsbD 6, b.getLsbD 5, b.getLsbD 4, b.getLsbD 3, b.getLsbD 2, b.getLsbD 1, b.getLsbD 0]

/-- A finite stream of bytes as the port delivers it (R65). -/
def BitSource.ofBytes (bytes : List Byte) : BitSource :=
  { bits := bytes.flatMap bitsOfByte, pos := 0, tail := .eos }

/-! ### The reset input (70_reset_and_hazards.md R260, R261) -/

/-- Asserting reset: every item of R260 takes its reset value. The parameters are constants, "the bit source is not
reset by the block", and the host, the order of moves and the model's draw counter are no part of the block. -/
def State.resetInput (s : State) : State :=
  { State.reset with
    cfg := s.cfg, source := s.source, host := s.host, turns := s.turns, hostReads := s.hostReads, draws := s.draws }

end Sys2Proof.Machine
end

