-- ==== Sys2Proof/Machine/Operands.lean ====
section
/-! DEFINITION. Operands: the range check of each operand form (the INDEX conditions of 60_exceptions.md R220) and the
widening of a result. There are no register or memory operands (10_state.md R21). -/

namespace Sys2Proof.Machine

/-- SETN's `n` is refused when `n > NSYM_MAX` (40_config_commands.md R101). -/
def State.countOutOfRange (s : State) (n : Nat) : Bool := decide (s.cfg.nsymMax < n)

/-- LDLEN's and RDLEN's index is refused when `i >= NSYM_MAX` (R102, R103). -/
def State.lenIndexOutOfRange (s : State) (i : Nat) : Bool := decide (s.cfg.nsymMax ≤ i)

/-- RDNODE's index is refused when `i >= NNODES` (43_debug.md R210). -/
def State.nodeIndexOutOfRange (s : State) (i : Nat) : Bool := decide (s.nnodes.toNat ≤ i)

/-- BUILD's contract is violated when `NSYM < 2` or `NSYM > NSYM_MAX` (41_build.md R130, R131). -/
def State.contractViolated (s : State) : Bool :=
  decide (s.nsym.toNat < 2) || decide (s.cfg.nsymMax < s.nsym.toNat)

/-- `zext_16` of a code length (R103). -/
def zext16 (l : Byte) : Half := l.setWidth 16

end Sys2Proof.Machine
end

