-- ==== Sys2Proof/Machine/Build.lean ====
section
/-! DEFINITION. BUILD (spec/41_build.md): the acceptance step (R130, R131), BuildTree (R132 to R142) and the completion
step (R141). -/

namespace Sys2Proof.Machine

/-! ### Step 2: pairing and sort (R132) -/

/-- Puts `a` before the first entry that does not come before it. -/
def insertBefore {α : Type} (le : α → α → Bool) (a : α) : List α → List α
  | [] => [a]
  | b :: l => if le a b then a :: b :: l else b :: insertBefore le a l

/-- `sort_stable` (00_scope.md R9): ascending by `le`, entries with equal keys in the order they came. -/
def sortStable {α : Type} (le : α → α → Bool) : List α → List α
  | [] => []
  | a :: l => insertBefore le a (sortStable le l)

/-- The key order of R132: "comparing length first ... and then symbol", both unsigned. -/
def Pair.le (a b : Pair) : Bool :=
  decide (a.length.toNat < b.length.toNat)
    || (decide (a.length.toNat = b.length.toNat) && decide (a.symbol.toNat ≤ b.symbol.toNat))

/-- `PAIRS[s] <- (LEN[s], s)` for the `n` symbols from `i` on, reading LEN in that order; with it, the free draws made
after the reads (10_state.md R39). -/
def readPairs (len : List Host.Cell) : Nat → Nat → Nat → List Pair × Nat
  | 0, _, draws => ([], draws)
  | n + 1, i, draws =>
    let (l, draws') := lenValue len draws i
    let (ps, draws'') := readPairs len n (i + 1) draws'
    (⟨l, BitVec.ofNat 16 i⟩ :: ps, draws'')

/-- PAIRS after step 2. -/
def State.sortedPairs (s : State) : List Pair :=
  sortStable Pair.le (readPairs s.len s.nsym.toNat 0 s.draws).1

/-- Step 2 as a change of state: PAIRS is written, and the free draws of the reads are used up. -/
def State.formPairs (s : State) : State :=
  { s with pairs := s.sortedPairs, draws := (readPairs s.len s.nsym.toNat 0 s.draws).2 }

/-! ### Step 3: code assignment (R133, R134) -/

/-- The walk of R133 between two entries: CODES so far, the accumulator and the tracker. -/
structure Walk where
  codes : List Triple
  acc : Word
  t : Byte
  deriving DecidableEq, Repr

/-- The increment `2^(32 - t)` modulo 2^32 (R133; 0 when `t = 0`, R134). -/
def increment (t : Byte) : Word := BitVec.ofNat 32 (2 ^ (32 - t.toNat))

/-- The tracker after an entry: lowered "if the pair's length is shorter" (R133). -/
def lowered (t length : Byte) : Byte := if length.toNat < t.toNat then length else t

/-- One entry of the walk. -/
def Walk.visit (p : Pair) (w : Walk) : Walk :=
  { codes := ⟨w.acc, lowered w.t p.length, p.symbol⟩ :: w.codes
    acc := w.acc + increment (lowered w.t p.length)
    t := lowered w.t p.length }

/-- The walk over PAIRS "from the last entry to the first". -/
def assignCodes : List Pair → Walk
  | [] => { codes := [], acc := 0, t := 32#8 }
  | p :: ps => (assignCodes ps).visit p

/-! ### Step 4: sort by code (R135) -/

/-- The key order of R135: the 32-bit codes, unsigned. -/
def Triple.le (a b : Triple) : Bool := decide (a.code.toNat ≤ b.code.toNat)

/-- Steps 3 and 4 as a change of state: CODES is written. -/
def State.formCodes (s : State) : State :=
  { s with codes := sortStable Triple.le (assignCodes s.pairs).codes }

/-! ### Step 5: partition (R136 to R140, R142) -/

/-- Level `p` of a code: `lvl(c, p) = c[31 - p]` (00_scope.md R8). -/
def lvl (c : Word) (p : Nat) : Bool := c.getLsbD (31 - p)

/-- The node array and NEXT_NODE, which Partition writes. -/
structure TreeMem where
  nodes : List (Nat × Node)
  next : Half
  deriving DecidableEq, Repr

/-- What Partition returns: a node index, or the error that ends BuildTree (R140). -/
inductive Built where
  | node (n : Half)
  | failed (code : ErrCode)
  deriving DecidableEq, Repr

/-- Allocates a node (R137, R142): its fields are written 0. -/
def TreeMem.alloc (m : TreeMem) : TreeMem :=
  { nodes := Memory.write m.nodes m.next.toNat ⟨0, 0, 0, 0⟩, next := m.next + 1 }

/-- Changes `NODES[n]`. -/
def TreeMem.modify (m : TreeMem) (n : Half) (f : Node → Node) : TreeMem :=
  { m with nodes := Memory.write m.nodes n.toNat (f (nodeAt m.nodes n.toNat)) }

/-- One side of a node (10_state.md R33). -/
inductive Side where
  | left
  | right
  deriving DecidableEq, Repr

/-- A slot that is a leaf: the sentinel and the symbol (R137). -/
def setLeaf (d : Node) (symbol : Half) : Side → Node
  | .left => { d with lidx := sent, lval := symbol }
  | .right => { d with ridx := sent, rval := symbol }

/-- A slot that leads to a node (R137). -/
def setChild (d : Node) (child : Half) : Side → Node
  | .left => { d with lidx := child }
  | .right => { d with ridx := child }

/-- Completes one side of node `n` (R137): a leaf if the side has one entry, else the node that `recurse` builds. -/
def fillSide (side : Side) (n : Half) (r : List Triple)
    (recurse : TreeMem → Built × TreeMem) (m : TreeMem) : Built × TreeMem :=
  match r with
  | [x] => (.node n, m.modify n fun d => setLeaf d x.symbol side)
  | _ =>
    match recurse m with
    | (.node c, m') => (.node n, m'.modify n fun d => setChild d c side)
    | (.failed e, m') => (.failed e, m')

/-- The normal split (R137): LEFT, "including its whole recursion", before RIGHT; an error ends BuildTree at once. -/
def normalSplit (left right : TreeMem → Built × TreeMem) (m : TreeMem) : Built × TreeMem :=
  match left m.alloc with
  | (.node _, m') => right m'
  | (.failed e, m') => (.failed e, m')

/-- `Z`: the entries before the first one whose level-p bit is set (R136). -/
def zeros (r : List Triple) (p : Nat) : List Triple := r.takeWhile fun x => !lvl x.code p

/-- `O`: the entries from the first one whose level-p bit is set (R136). -/
def ones (r : List Triple) (p : Nat) : List Triple := r.dropWhile fun x => !lvl x.code p

/-- `Partition(r, p)` with `p = 32 - k`, `k` the levels that are left (R136; EQUAL at level 32, R139; the degenerate
split, R138). -/
def partition : Nat → List Triple → TreeMem → Built × TreeMem
  | 0, _, m => (.failed .equal, m)
  | k + 1, r, m =>
    if (zeros r (31 - k)).isEmpty || (ones r (31 - k)).isEmpty then
      if r.length < 2 then (.failed .empty, m)
      else if 31 - k = 31 then (.failed .equal, m)
      else partition k r m
    else
      normalSplit
        (fillSide .left m.next (zeros r (31 - k)) (partition k (zeros r (31 - k))))
        (fillSide .right m.next (ones r (31 - k)) (partition k (ones r (31 - k))))
        m

/-- Step 5 on a state: `NEXT_NODE <- 0` and `Partition(CODES[0:N], 0)` (R136). -/
def State.partitionResult (s : State) : Built × TreeMem :=
  partition 32 s.codes { nodes := s.nodes, next := 0 }

/-- The node array and NEXT_NODE after step 5; what an error left written stands (R140). -/
def State.storeTree (s : State) : State :=
  { s with nodes := s.partitionResult.2.nodes, nextNode := s.partitionResult.2.next }

/-! ### Completion (R141) -/

/-- PAIRS and CODES exist only while st = BUILDING (10_state.md R35, log entry 9). -/
def State.dropScratch (s : State) : State := { s with pairs := [], codes := [] }

/-- The last lines of BUILD (R141). -/
def State.commitTree (s : State) : Built → State
  | .node _ => { s with nnodes := s.nextNode, treeValid := true, st := .idle }
  | .failed e => s.raise e

/-- The completion step: BuildTree "as one function", then its result is committed (R141). -/
def State.buildComplete (s : State) : State :=
  let c := s.formPairs.formCodes
  (c.storeTree.commitTree c.partitionResult.1).dropScratch

/-! ### The command (R130, R131) -/

/-- BUILD: the acceptance step. The previous tree is discarded; then a contract violation halts the block, or the build
begins. -/
def execBuild (s : State) : Host.Outcome State Fault Refusal :=
  if s.contractViolated then .next ((s.accept 0x4#4).dropTree.raise .contract)
  else .next { (s.accept 0x4#4).dropTree with st := .building }

end Sys2Proof.Machine
end

