-- ==== Sys2Proof/Machine/Debug.lean ====
section
/-! DEFINITION. RDNODE, tree read-back (spec/43_debug.md R210). -/

namespace Sys2Proof.Machine

/-- `NODES[i].RIDX ++ NODES[i].LIDX` (R210, 10_state.md R28). -/
def idxWord (d : Node) : Word := d.ridx ++ d.lidx

/-- `NODES[i].RVAL ++ NODES[i].LVAL` (R210, 10_state.md R29). -/
def valWord (d : Node) : Word := d.rval ++ d.lval

/-- RDNODE i (R210): NOTREE before INDEX (60_exceptions.md R225), else NODE_IDX and NODE_VAL. -/
def execRdnode (i : Nat) (s : State) : Host.Outcome State Fault Refusal :=
  if !s.treeValid then .next ((s.accept 0x7#4).raise .notree)
  else if s.nodeIndexOutOfRange i then .next ((s.accept 0x7#4).raise .index)
  else .next { s.accept 0x7#4 with
    nodeIdx := idxWord (nodeAt s.nodes i), nodeVal := valWord (nodeAt s.nodes i) }

end Sys2Proof.Machine
end

