-- ==== Sys2Proof/Machine/DecodeSymbol.lean ====
section
/-! DEFINITION. DECODE (spec/42_decode.md): the acceptance step (R180, R181) and the traversal step (R182, R184). -/

namespace Sys2Proof.Machine

/-- DECODE (R180): NOTREE without a tree (R181), else the walk begins at the root. -/
def execDecode (s : State) : Host.Outcome State Fault Refusal :=
  if s.treeValid then .next { s.accept 0x5#4 with cur := 0, bitcnt := 0, st := .decoding }
  else .next ((s.accept 0x5#4).raise .notree)

/-- The slot of a node that an input bit selects: "left for 1, right for 0" (R182), index and value. Both slots are
read (R186). -/
def slotOf (d : Node) (b : Bool) : Half × Half := if b then (d.lidx, d.lval) else (d.ridx, d.rval)

/-- The traversal step after a `BIT` answer (R182). -/
def State.takeBit (s : State) (b : Bool) : State :=
  let slot := slotOf (nodeAt s.nodes s.cur.toNat) b
  let s' := { s with source := s.source.advance, bitcnt := s.bitcnt + 1 }
  if slot.1 = sent then { s'.setResult slot.2 with st := .idle } else { s' with cur := slot.1 }

/-- The traversal step (R182): a bit is taken, EOS ends the command with TRUNC (R184), and while the bit source does not
answer nothing changes ("the block is then stuck, not faulted", 70_reset_and_hazards.md R267). -/
def State.traverse (s : State) : State :=
  match s.source.answer with
  | .bit b => s.takeBit b
  | .eos => s.raise .trunc
  | .pending => s

end Sys2Proof.Machine
end

