-- ==== Sys2Proof/Machine/Settings.lean ====
section
/-! DEFINITION. The configuration commands (spec/40_config_commands.md): NOP, SETN, LDLEN, RDLEN, DISCARD. Each is run on
the state in which its word was accepted and completes at once. -/

namespace Sys2Proof.Machine

/-- NOP (R100): clears OVERRUN. -/
def execNop (s : State) : Host.Outcome State Fault Refusal :=
  .next { s.accept 0x0#4 with overrun := false }

/-- SETN n (R101): sets the alphabet size, or INDEX. -/
def execSetn (n : Nat) (s : State) : Host.Outcome State Fault Refusal :=
  if s.countOutOfRange n then .next ((s.accept 0x1#4).raise .index)
  else .next { s.accept 0x1#4 with nsym := BitVec.ofNat 16 n }

/-- LDLEN i, l (R102): writes one code length, or INDEX. -/
def execLdlen (i l : Nat) (s : State) : Host.Outcome State Fault Refusal :=
  if s.lenIndexOutOfRange i then .next ((s.accept 0x2#4).raise .index)
  else .next ((s.accept 0x2#4).writeLen i (BitVec.ofNat 8 l))

/-- RDLEN i (R103): reads back one code length, or INDEX. -/
def execRdlen (i : Nat) (s : State) : Host.Outcome State Fault Refusal :=
  if s.lenIndexOutOfRange i then .next ((s.accept 0x3#4).raise .index)
  else .next (((s.accept 0x3#4).afterReadLen i).setResult (zext16 (s.readLen i)))

/-- DISCARD (R104): drops the current tree; not an error when there is none. -/
def execDiscard (s : State) : Host.Outcome State Fault Refusal :=
  .next (s.accept 0x6#4).dropTree

end Sys2Proof.Machine
end

