-- ==== Sys2Proof/Machine/Dispatch.lean ====
section
/-! DEFINITION. The meaning of every command, run on the state (st = IDLE) in which its word was accepted. -/

namespace Sys2Proof.Machine

def exec (i : Instr) (s : State) : Host.Outcome State Fault Refusal :=
  match i with
  | .nop => Sys2Proof.Machine.execNop s
  | .setn n => Sys2Proof.Machine.execSetn n s
  | .ldlen x l => Sys2Proof.Machine.execLdlen x l s
  | .rdlen x => Sys2Proof.Machine.execRdlen x s
  | .build => Sys2Proof.Machine.execBuild s
  | .decode => Sys2Proof.Machine.execDecode s
  | .discard => Sys2Proof.Machine.execDiscard s
  | .rdnode x => Sys2Proof.Machine.execRdnode x s

end Sys2Proof.Machine
end

