-- ==== Sys2Proof/Machine/Flags.lean ====
section
/-! DEFINITION. The host-visible registers computed from the state: STATUS and its fields (10_state.md R23), and the
words of the other registers (R24 to R30). The block has no condition codes (R40). -/

namespace Sys2Proof.Machine

/-- STATUS.BUSY: "1 iff st is BUILDING or DECODING" (R23). -/
def Ctl.busy : Ctl → Bool
  | .idle => false
  | .building => true
  | .decoding => true
  | .halted => false

/-- STATUS.HALTED: "1 iff st = HALTED" (R23). -/
def Ctl.isHalted : Ctl → Bool
  | .idle => false
  | .building => false
  | .decoding => false
  | .halted => true

/-- The number of an error code (60_exceptions.md R220). -/
def ErrCode.code : ErrCode → BitVec 4
  | .ok => 0#4
  | .contract => 1#4
  | .empty => 2#4
  | .equal => 3#4
  | .trunc => 4#4
  | .notree => 5#4
  | .index => 6#4
  | .illegal => 7#4

/-- The STATUS word (R23), from bit 31 down: reserved, LASTOP, ERR, reserved, OVERRUN, HALTED, RESULT_VALID, TREE_VALID,
BUSY. -/
def State.statusWord (s : State) : Word :=
  0#16 ++ s.lastop ++ s.err.code ++ 0#3 ++ BitVec.ofBool s.overrun ++ BitVec.ofBool s.st.isHalted
    ++ BitVec.ofBool s.resultValid ++ BitVec.ofBool s.treeValid ++ BitVec.ofBool s.st.busy

/-- The ID word (R30): REV, MAXLEN, NSYM_MAX. -/
def State.idWord (s : State) : Word := rev ++ maxlen ++ BitVec.ofNat 16 s.cfg.nsymMax

/-- The registers of the window (20_memory.md R61). -/
inductive HostReg where
  | cmd
  | status
  | result
  | nsym
  | nnodes
  | bitcnt
  | nodeIdx
  | nodeVal
  | id
  | reserved
  deriving DecidableEq, Repr

/-- The register at byte offset `4 * k` (R61). -/
def HostReg.ofIndex : Nat → HostReg
  | 0 => .cmd
  | 1 => .status
  | 2 => .result
  | 3 => .nsym
  | 4 => .nnodes
  | 5 => .bitcnt
  | 6 => .nodeIdx
  | 7 => .nodeVal
  | 8 => .id
  | _ => .reserved

/-- What reading a register returns (R24 to R31, 20_memory.md R61, R63). -/
def State.regWord (s : State) : HostReg → Word
  | .cmd => 0
  | .status => s.statusWord
  | .result => s.rval.setWidth 32
  | .nsym => s.nsym.setWidth 32
  | .nnodes => s.nnodes.setWidth 32
  | .bitcnt => s.bitcnt.setWidth 32
  | .nodeIdx => s.nodeIdx
  | .nodeVal => s.nodeVal
  | .id => s.idWord
  | .reserved => 0

end Sys2Proof.Machine
end

