-- ==== Sys2Proof/Machine/Block.lean ====
section
/-! DEFINITION. What each agent does in its move (spec/00_scope.md R6): the host's register accesses
(20_memory.md R60 to R68), the presentation of a command word (60_exceptions.md R222 to R225), and the block's pending
step (41_build.md R141, 42_decode.md R182). -/

namespace Sys2Proof.Machine

/-- A host write of `w` to CMD (60_exceptions.md R225, items 1 to 4): HALTED drops it (R222), BUSY drops it and sets
OVERRUN (R223), IDLE accepts it (R224). -/
def writeCommand (w : Word) (s : State) : Host.Outcome State Fault Refusal :=
  match s.st with
  | .halted => .next s
  | .building => .next { s with overrun := true }
  | .decoding => .next { s with overrun := true }
  | .idle =>
    match decodeWord w with
    | .ok i => exec i s
    | .error _ => .next (s.illegal (fieldOp w))

/-- Which register an access reaches: one aligned 32-bit word of the window (20_memory.md R60 to R62); none for any
other access. -/
def registerAt (c : Config) (addr size : Nat) : Option HostReg :=
  if size = 4 ∧ c.htbBase ≤ addr ∧ (addr - c.htbBase) % 4 = 0 ∧ (addr - c.htbBase) / 4 < 16 then
    some (HostReg.ofIndex ((addr - c.htbBase) / 4))
  else none

/-- A read returns the register's word to the host and has no side effect (R63). -/
def State.hostGets (s : State) (v : Word) : State := { s with hostReads := v :: s.hostReads }

/-- A write to a register: only CMD has an effect (R61, R63). -/
def writeRegister (r : HostReg) (v : Word) (s : State) : Host.Outcome State Fault Refusal :=
  match r with
  | .cmd => writeCommand v s
  | _ => .next s

/-- One operation of the host. WAIT reads STATUS and stays pending while BUSY = 1 (30_encoding.md R88). -/
def runHostOp (op : HostOp) (s : State) : Host.Outcome State Fault Refusal :=
  match op with
  | .memRead addr size =>
    match registerAt s.cfg addr size with
    | some r => .next (s.hostGets (s.regWord r))
    | none => .refused .hostAccessOutsidePort
  | .memWrite addr size v =>
    match registerAt s.cfg addr size with
    | some r => writeRegister r v s
    | none => .refused .hostAccessOutsidePort
  | .wait =>
    if s.st.busy then .next { s.hostGets s.statusWord with host := .wait :: s.host }
    else .next (s.hostGets s.statusWord)

/-- The host's move: its oldest operation, if any. Accesses take effect in the order it issues them (R67). -/
def hostMove (s : State) : Host.Outcome State Fault Refusal :=
  match s.host with
  | [] => .next s
  | op :: ops => runHostOp op { s with host := ops }

/-- The block's move: its pending step. IDLE and HALTED have none (60_exceptions.md R235, R222). -/
def State.blockMove (s : State) : State :=
  match s.st with
  | .idle => s
  | .building => s.buildComplete
  | .decoding => s.traverse
  | .halted => s

/-- The move of the agent whose turn it is. -/
def takeTurn (t : Turn) (s : State) : Host.Outcome State Fault Refusal :=
  match t with
  | .host => hostMove s
  | .block => .next s.blockMove
  | .reset => .next s.resetInput

/-- The move when no turn is listed (log entry 7): a busy block takes its pending step; otherwise the host goes on; with
neither, IDLE waits (R235) and HALTED is a fault (R222). -/
def defaultMove (s : State) : Host.Outcome State Fault Refusal :=
  if s.st.busy then .next s.blockMove
  else
    match s.host with
    | _ :: _ => hostMove s
    | [] => if s.st.isHalted then .fault .halted else .next s

/-- `s` with the host about to write `w` to CMD and the block IDLE, so that the word is accepted. -/
def State.presenting (s : State) (w : Word) : State :=
  { s with st := .idle, host := .memWrite s.cfg.htbBase 4 w :: s.host, turns := .host :: s.turns }

/-! ### Host operations in programs (30_encoding.md R88) -/

/-- The byte offset of a register (20_memory.md R61); a reserved one stands for the first reserved word. -/
def HostReg.offset : HostReg → Nat
  | .cmd => 0x00
  | .status => 0x04
  | .result => 0x08
  | .nsym => 0x0C
  | .nnodes => 0x10
  | .bitcnt => 0x14
  | .nodeIdx => 0x18
  | .nodeVal => 0x1C
  | .id => 0x20
  | .reserved => 0x24

/-- `WR off, v`. -/
def hostWR (c : Config) (r : HostReg) (v : Word) : List HostOp := [.memWrite (c.htbBase + r.offset) 4 v]

/-- `RD off`. -/
def hostRD (c : Config) (r : HostReg) : List HostOp := [.memRead (c.htbBase + r.offset) 4]

/-- `C m`: `WR CMD, enc(m)`. -/
def hostC (c : Config) (m : Instr) : List HostOp := hostWR c .cmd (encode m)

/-- `CW m`: `C m` then `WAIT`. -/
def hostCW (c : Config) (m : Instr) : List HostOp := hostC c m ++ [.wait]

/-- `CW LDLEN i, li` for the lengths from index `i` on. -/
def hostLoadFrom (c : Config) (i : Nat) : List Nat → List HostOp
  | [] => []
  | l :: ls => hostCW c (.ldlen i l) ++ hostLoadFrom c (i + 1) ls

/-- `LOADLENS l0, l1, ..., l(n-1)`. -/
def hostLoadLens (c : Config) (ls : List Nat) : List HostOp :=
  hostCW c (.setn ls.length) ++ hostLoadFrom c 0 ls

/-- `DEC`: `CW DECODE` then `RD STATUS` and `RD RESULT`. -/
def hostDec (c : Config) : List HostOp := hostCW c .decode ++ hostRD c .status ++ hostRD c .result

end Sys2Proof.Machine
end

