-- ==== Sys2Proof/Machine/Step.lean ====
section
/-! DEFINITION. One step of the machine: one move of one agent. -/

namespace Sys2Proof.Machine

/-- The next agent of `turns` moves; with none listed, `defaultMove` says who does (log entry 7). -/
def step (s : State) : Host.Outcome State Fault Refusal :=
  match s.turns with
  | t :: ts => takeTurn t { s with turns := ts }
  | [] => defaultMove s

/-- `s` with the host's next move the write of this word to CMD, the block IDLE: the block fetches nothing, a command is
what the host writes (10_state.md R22, R31; log entry 10). -/
def State.withFetchWord (s : State) (nbits w : Nat) : State := s.presenting (tableWord nbits w)

end Sys2Proof.Machine
end

