-- ==== Sys2Proof/Machine/Assembler.lean ====
section
/-! DEFINITION. The assembler syntax of 30_encoding.md R87: one line of text to a command. -/

namespace Sys2Proof.Machine

/-- Why a line is no command (R87). -/
inductive AsmError where
  | unknownMnemonic
  | badOperands
  | outOfRange
  deriving DecidableEq, Repr

/-- The value of a hexadecimal digit; a decimal digit is one below ten. -/
def digitValue (c : Char) : Option Nat :=
  if 48 ≤ c.toNat ∧ c.toNat ≤ 57 then some (c.toNat - 48)
  else if 97 ≤ c.toNat ∧ c.toNat ≤ 102 then some (c.toNat - 87)
  else if 65 ≤ c.toNat ∧ c.toNat ≤ 70 then some (c.toNat - 55)
  else none

/-- Digits in a base, after those already read. -/
def digitsFrom (base : Nat) : Nat → List Char → Option Nat
  | acc, [] => some acc
  | acc, c :: cs =>
    match digitValue c with
    | some d => if d < base then digitsFrom base (base * acc + d) cs else none
    | none => none

/-- "Numbers are decimal or `0x` hexadecimal." -/
def parseNumber : List Char → Option Nat
  | '0' :: 'x' :: c :: cs => digitsFrom 16 0 (c :: cs)
  | c :: cs => digitsFrom 10 0 (c :: cs)
  | [] => none

/-- Puts a character before the first piece. -/
def consFirst (c : Char) : List (List Char) → List (List Char)
  | [] => [[c]]
  | p :: ps => (c :: p) :: ps

/-- "the operands separated by `, `". -/
def splitOperands : List Char → List (List Char)
  | ',' :: ' ' :: cs => [] :: splitOperands cs
  | c :: cs => consFirst c (splitOperands cs)
  | [] => [[]]

/-- The text before a comment, with no space at either end: "`;` starts a comment". -/
def lineBody (l : List Char) : List Char :=
  (((l.takeWhile (· ≠ ';')).dropWhile (· = ' ')).reverse.dropWhile (· = ' ')).reverse

/-- The numbers after the mnemonic: "a space and the operands"; none where there is no operand text. -/
def parseOperands : List Char → Option (List Nat)
  | [] => some []
  | ' ' :: cs => (splitOperands cs).mapM parseNumber
  | _ => none

/-- The command of a mnemonic with these operands (the forms of R87). -/
def formOf (mnemonic : List Char) (xs : List Nat) : Except AsmError Instr :=
  if mnemonic = ['N', 'O', 'P'] then
    match xs with | [] => .ok .nop | _ => .error .badOperands
  else if mnemonic = ['S', 'E', 'T', 'N'] then
    match xs with | [n] => .ok (.setn n) | _ => .error .badOperands
  else if mnemonic = ['L', 'D', 'L', 'E', 'N'] then
    match xs with | [i, l] => .ok (.ldlen i l) | _ => .error .badOperands
  else if mnemonic = ['R', 'D', 'L', 'E', 'N'] then
    match xs with | [i] => .ok (.rdlen i) | _ => .error .badOperands
  else if mnemonic = ['B', 'U', 'I', 'L', 'D'] then
    match xs with | [] => .ok .build | _ => .error .badOperands
  else if mnemonic = ['D', 'E', 'C', 'O', 'D', 'E'] then
    match xs with | [] => .ok .decode | _ => .error .badOperands
  else if mnemonic = ['D', 'I', 'S', 'C', 'A', 'R', 'D'] then
    match xs with | [] => .ok .discard | _ => .error .badOperands
  else if mnemonic = ['R', 'D', 'N', 'O', 'D', 'E'] then
    match xs with | [i] => .ok (.rdnode i) | _ => .error .badOperands
  else .error .unknownMnemonic

/-- One line: no command for a blank or comment line; "an operand out of its field's range is an assembly error, not an
encoding". -/
def assembleLine (l : List Char) : Except AsmError (Option Instr) :=
  match lineBody l with
  | [] => .ok none
  | body =>
    match parseOperands (body.dropWhile (· ≠ ' ')) with
    | none => .error .badOperands
    | some xs =>
      match formOf (body.takeWhile (· ≠ ' ')) xs with
      | .ok i => if i.wf then .ok (some i) else .error .outOfRange
      | .error e => .error e

end Sys2Proof.Machine
end

