-- ==== Sys2Proof/Safety.lean ====
section
/-! DEFINITION. The terms in which claims are stated: what the next step will do, the tree as a decoder sees it, the codes of
spec/41_build.md, and the invariant of the machine. -/

namespace Sys2Proof.Machine

/-! ### What the next step does -/

/-- The next step is the host's operation `op`, after which the machine goes on from `rest` (the turn and the operation
taken off). -/
def HostNext (s : State) (op : HostOp) (rest : State) : Prop :=
  ∃ ops, s.host = op :: ops ∧
    ((∃ ts, s.turns = .host :: ts ∧ rest = { s with turns := ts, host := ops }) ∨
      (s.turns = [] ∧ s.st.busy = false ∧ rest = { s with host := ops }))

/-- The next step is the host's write of the word `w` to CMD. -/
def WritesCommand (s : State) (w : Word) (rest : State) : Prop :=
  HostNext s (.memWrite s.cfg.htbBase 4 w) rest

/-- The next step is the block's pending step, after which the machine goes on from `rest` (the turn taken off). -/
def BlockNext (s rest : State) : Prop :=
  s.st.busy = true ∧
    ((∃ ts, s.turns = .block :: ts ∧ rest = { s with turns := ts }) ∨ (s.turns = [] ∧ rest = s))

/-- The next step is the reset input. -/
def ResetNext (s : State) : Prop := ∃ ts, s.turns = .reset :: ts

/-- A state that counts as safe: the block has not halted on a contract violation (60_exceptions.md R222: "A model treats
HALTED as a fault state"). -/
def Safe (s : State) : Prop := s.st ≠ .halted

/-! ### Numbers in text -/

/-- The number that digits spell in a base, the most significant first. -/
def numeral (base : Nat) (ds : List Nat) : Nat := ds.foldl (fun n d => base * n + d) 0

/-- `t` spells the number `n`: "Numbers are decimal or `0x` hexadecimal" (30_encoding.md R87). -/
def SpellsNumber (t : List Char) (n : Nat) : Prop :=
  ∃ ds : List Nat, ds ≠ [] ∧
    (((∀ d ∈ ds, d < 10) ∧ t = ds.map Nat.digitChar ∧ n = numeral 10 ds) ∨
      ((∀ d ∈ ds, d < 16) ∧ t = '0' :: 'x' :: ds.map Nat.digitChar ∧ n = numeral 16 ds))

/-! ### Lengths and codes -/

/-- Every LEN entry that BUILD reads has been written since reset (70_reset_and_hazards.md R262). -/
def LensWritten (s : State) : Prop := ∀ i < s.nsym.toNat, (Memory.read s.len i).isSome = true

/-- `LEN[i]` as a number, for a written entry. -/
def lenOf (s : State) (i : Nat) : Nat := ((Memory.read s.len i).getD 0).toNat

/-- The triples of step 3, before step 4 sorts them (41_build.md R133). -/
def storedCodes (s : State) : List Triple := (assignCodes s.sortedPairs).codes

/-- The N stored codes are pairwise distinct (41_build.md R143). -/
def CodesDistinct (s : State) : Prop := ((storedCodes s).map Triple.code).Nodup

/-- The Kraft sum, scaled by 2^32: `sum_s 2^(32 - LEN[s])` (41_build.md R143). -/
def kraftSum (s : State) : Nat := ((List.range s.nsym.toNat).map fun i => 2 ^ (32 - lenOf s i)).sum

/-- Every length is in 1..32. -/
def LensInRange (s : State) : Prop := ∀ i < s.nsym.toNat, 1 ≤ lenOf s i ∧ lenOf s i ≤ 32

/-- The `n` bits of `v`, the most significant first. -/
def bitsOf (n v : Nat) : List Bool := (List.range n).map fun j => v.testBit (n - 1 - j)

/-- The canonical code of the entry at position `k` of PAIRS: "the LEN-bit binary number sum_(j<k) 2^(LEN_k - LEN_j)"
(41_build.md R147). -/
def canonicalCode (ps : List Pair) (k : Nat) (p : Pair) : List Bool :=
  bitsOf p.length.toNat (((ps.take k).map fun q => 2 ^ (p.length.toNat - q.length.toNat)).sum)

/-- The stream code that a stored code has in a sub-range at level `32 - k` (41_build.md R146): at each level where a node
is allocated, the complement of the stored code's bit; a degenerate level gives no bit; a side with one entry ends it. -/
def streamCode : Nat → List Triple → Word → List Bool
  | 0, _, _ => []
  | k + 1, r, c =>
    if (zeros r (31 - k)).isEmpty || (ones r (31 - k)).isEmpty then streamCode k r c
    else if lvl c (31 - k) then
      false :: (if (ones r (31 - k)).length = 1 then [] else streamCode k (ones r (31 - k)) c)
    else true :: (if (zeros r (31 - k)).length = 1 then [] else streamCode k (zeros r (31 - k)) c)

/-! ### The tree as a decoder sees it -/

/-- The symbol to which a bit string leads from a node, all its bits being used up: "left = bit value 1, right = bit
value 0" (10_state.md R33). None where the string ends at a node, or a leaf comes before its end. -/
def leads (nodes : List (Nat × Node)) : List Bool → Half → Option Half
  | [], _ => none
  | b :: bs, i =>
    let slot := slotOf (nodeAt nodes i.toNat) b
    if slot.1 = sent then (if bs.isEmpty then some slot.2 else none) else leads nodes bs slot.1

/-- From node `i`, one of the `n` nodes of the tree, every bit string reaches a leaf within `k` bits
(41_build.md R145, 42_decode.md R188). -/
def closedWithin (nodes : List (Nat × Node)) (n : Nat) : Nat → Half → Bool
  | 0, _ => false
  | k + 1, i =>
    decide (i.toNat < n) &&
      match Memory.read nodes i.toNat with
      | none => false
      | some d =>
        (decide (d.lidx = sent) || closedWithin nodes n k d.lidx) &&
          (decide (d.ridx = sent) || closedWithin nodes n k d.ridx)

/-- A filled slot of node `i` in a tree of `n` nodes: a leaf with one of the `n + 1` symbols, or a later node and the value
0 (10_state.md R33, 41_build.md R137, R142). -/
def SlotFilled (n i : Nat) (idx val : Half) : Prop :=
  (idx = sent ∧ val.toNat ≤ n) ∨ (i < idx.toNat ∧ idx.toNat < n ∧ val = 0)

/-- Every node of the tree is written and has two filled slots (42_decode.md R188). -/
def NodesFilled (nodes : List (Nat × Node)) (n : Nat) : Prop :=
  ∀ i < n, ∃ d, Memory.read nodes i = some d ∧ SlotFilled n i d.lidx d.lval ∧ SlotFilled n i d.ridx d.rval

/-! ### The invariant -/

/-- What holds in every state of the machine: at reset, and after every step from a state where it holds. -/
structure Inv (s : State) : Prop where
  /-- 2 <= NSYM_MAX <= 65535 (00_scope.md R5). -/
  config : s.cfg.WellFormed
  /-- LEN is in canonical form and inside its NSYM_MAX entries (10_state.md R32). -/
  len_wf : Memory.wf s.len = true
  len_below : Memory.below s.cfg.nsymMax s.len = true
  /-- NODES is in canonical form and inside its NODE_CAP entries (10_state.md R33). -/
  nodes_wf : Memory.wf s.nodes = true
  nodes_below : Memory.below s.cfg.nodeCap s.nodes = true
  /-- NSYM holds a legal value, 0..NSYM_MAX (10_state.md R25). -/
  nsym_legal : s.nsym.toNat ≤ s.cfg.nsymMax
  /-- NNODES is 0 when TREE_VALID = 0 (10_state.md R26). -/
  no_tree : s.treeValid = false → s.nnodes = 0
  /-- A valid tree: NNODES is NEXT_NODE (10_state.md R26), every node is filled, and every bit string from the root reaches
  a leaf within 32 bits (41_build.md R145). -/
  tree_next : s.treeValid = true → s.nextNode = s.nnodes
  tree_filled : s.treeValid = true → NodesFilled s.nodes s.nnodes.toNat
  tree_closed : s.treeValid = true → closedWithin s.nodes s.nnodes.toNat 32 0 = true
  /-- While a BUILD runs there is no tree and no error yet (41_build.md R130). -/
  building : s.st = .building →
    2 ≤ s.nsym.toNat ∧ s.treeValid = false ∧ s.err = .ok ∧ s.resultValid = false ∧ s.lastop = 0x4#4
  /-- While a DECODE runs there is a tree, and from CUR a leaf is reached before 32 bits are consumed (42_decode.md
  R187). -/
  decoding : s.st = .decoding →
    s.treeValid = true ∧ s.err = .ok ∧ s.resultValid = false ∧ s.lastop = 0x5#4 ∧ s.bitcnt.toNat < 32 ∧
      closedWithin s.nodes s.nnodes.toNat (32 - s.bitcnt.toNat) s.cur = true
  /-- HALTED is the state after a contract violation, and only that (60_exceptions.md R222). -/
  halted : s.st = .halted ↔ s.err = .contract
  /-- RESULT_VALID: the last completed command was DECODE or RDLEN and it ended with ERR = OK (10_state.md R23). -/
  result : s.resultValid = true →
    s.st = .idle ∧ s.err = .ok ∧ (s.lastop = 0x3#4 ∨ s.lastop = 0x5#4)
  /-- EMPTY is never raised (41_build.md R138). -/
  never_empty : s.err ≠ .empty
  /-- BITCNT is 0..32 (10_state.md R27). -/
  bitcnt_le : s.bitcnt.toNat ≤ 32
  /-- PAIRS and CODES do not exist between steps (10_state.md R35, log entry 9). -/
  scratch : s.pairs = [] ∧ s.codes = []

end Sys2Proof.Machine
end

