-- ==== Sys2Proof/Certificates/Slice0/Obligations.lean ====
section
/-! DEFINITION. The statements for the provers. Each says which rule of spec/ it formalises. -/

open Sys2Proof Sys2Proof.Machine

/-! ### Encoding (30_encoding.md) -/

/-- R80, R82, R86: the decoder reads back every command that has an encoding, with every operand. -/
def Obligations.DecodeEncode : Prop := ∀ i : Instr, i.WellFormed → decodeWord (encode i) = .ok i

/-- R82, the other direction: a word that decodes is the word of the command it decodes to, so each word has one
meaning. -/
def Obligations.EncodeDecode : Prop :=
  ∀ (w : Word) (i : Instr), decodeWord w = .ok i → i.WellFormed ∧ encode i = w

/-- R82: a word spells a command exactly where its row's mask and match say, its operands being the fields X and L taken
as unsigned numbers; a word with OP in 0x8..0xF spells none. -/
def Obligations.WordSpellsRow : Prop :=
  ∀ w : Word,
    (decodeWord w = .ok .nop ↔ w &&& 0xFFFFFFFF#32 = 0x00000000#32) ∧
    (∀ n, decodeWord w = .ok (.setn n) ↔ w &&& 0xFFFF0000#32 = 0x10000000#32 ∧ n = (w.extractLsb 15 0).toNat) ∧
    (∀ i l, decodeWord w = .ok (.ldlen i l) ↔ w &&& 0xFF000000#32 = 0x20000000#32 ∧
      i = (w.extractLsb 15 0).toNat ∧ l = (w.extractLsb 23 16).toNat) ∧
    (∀ i, decodeWord w = .ok (.rdlen i) ↔ w &&& 0xFFFF0000#32 = 0x30000000#32 ∧ i = (w.extractLsb 15 0).toNat) ∧
    (decodeWord w = .ok .build ↔ w &&& 0xFFFFFFFF#32 = 0x40000000#32) ∧
    (decodeWord w = .ok .decode ↔ w &&& 0xFFFFFFFF#32 = 0x50000000#32) ∧
    (decodeWord w = .ok .discard ↔ w &&& 0xFFFFFFFF#32 = 0x60000000#32) ∧
    (∀ i, decodeWord w = .ok (.rdnode i) ↔ w &&& 0xFFFF0000#32 = 0x70000000#32 ∧ i = (w.extractLsb 15 0).toNat) ∧
    (8 ≤ (w.extractLsb 31 28).toNat → decodeWord w = .error .reservedOp)

/-- R89: the words of the commands, as sums of the opcode and the shifted operands. -/
def Obligations.WordsOfCommands : Prop :=
  encode .nop = 0x00000000#32 ∧ encode .build = 0x40000000#32 ∧ encode .decode = 0x50000000#32 ∧
    encode .discard = 0x60000000#32 ∧
    (∀ n < 65536, encode (.setn n) = 0x10000000#32 ||| BitVec.ofNat 32 n) ∧
    (∀ i < 65536, ∀ l < 256, encode (.ldlen i l) = 0x20000000#32 ||| (BitVec.ofNat 32 l <<< 16) ||| BitVec.ofNat 32 i) ∧
    (∀ i < 65536, encode (.rdlen i) = 0x30000000#32 ||| BitVec.ofNat 32 i) ∧
    (∀ i < 65536, encode (.rdnode i) = 0x70000000#32 ||| BitVec.ofNat 32 i) ∧
    encode (.ldlen 3 2) = 0x20020003#32

/-- 95_test_vectors.md section 2.1: words written out from the encoding decode to what they stand for. -/
def Obligations.VectorWordsDecode : Prop :=
  decodeWord 0x00000000#32 = .ok .nop ∧
  decodeWord 0x10000003#32 = .ok (.setn 3) ∧
  decodeWord 0x20020003#32 = .ok (.ldlen 3 2) ∧
  decodeWord 0x2020FFFF#32 = .ok (.ldlen 65535 32) ∧
  decodeWord 0x30000003#32 = .ok (.rdlen 3) ∧
  decodeWord 0x40000000#32 = .ok .build ∧
  decodeWord 0x50000000#32 = .ok .decode ∧
  decodeWord 0x60000000#32 = .ok .discard ∧
  decodeWord 0x70000000#32 = .ok (.rdnode 0) ∧
  decodeWord 0x80000000#32 = .error .reservedOp ∧
  decodeWord 0x10010003#32 = .error .nonzeroOperand ∧
  decodeWord 0x01000000#32 = .error .nonzeroZ

/-- R83, R84: exactly the words with a reserved OP or a nonzero must-be-zero field are illegal, and writing one to the idle
block raises ILLEGAL and does nothing else. -/
def Obligations.IllegalWordsRaiseIllegal : Prop :=
  ∀ w : Word,
    ((∃ e, decodeWord w = .error e) ↔
      8 ≤ (w.extractLsb 31 28).toNat ∨ w.extractLsb 27 24 ≠ 0 ∨
        ((w.extractLsb 31 28).toNat ∈ [0, 4, 5, 6] ∧ w.extractLsb 23 0 ≠ 0) ∨
        ((w.extractLsb 31 28).toNat ∈ [1, 3, 7] ∧ w.extractLsb 23 16 ≠ 0)) ∧
    (∀ s rest : State, s.st = .idle → WritesCommand s w rest → (∃ e, decodeWord w = .error e) →
      step s = .next { rest with lastop := w.extractLsb 31 28, err := .illegal, resultValid := false })

/-- R87: each form with operands in range assembles to its command, in decimal and in `0x` hexadecimal; "an operand out of
its field's range ... is an assembly error, not an encoding"; `;` starts a comment; and whatever the assembler accepts has an
encoding that decodes to it. What R87 leaves open of spaces and letter case (log entry 17) is not stated. -/
def Obligations.AssembledLineHasEncoding : Prop :=
  (∀ (l : List Char) (i : Instr), assembleLine l = .ok (some i) → i.WellFormed ∧ decodeWord (encode i) = .ok i) ∧
  assembleLine ['N', 'O', 'P'] = .ok (some .nop) ∧
  assembleLine ['B', 'U', 'I', 'L', 'D'] = .ok (some .build) ∧
  assembleLine ['D', 'E', 'C', 'O', 'D', 'E'] = .ok (some .decode) ∧
  assembleLine ['D', 'I', 'S', 'C', 'A', 'R', 'D'] = .ok (some .discard) ∧
  (∀ (t : List Char) (n : Nat), SpellsNumber t n →
    assembleLine (['S', 'E', 'T', 'N', ' '] ++ t) = (if n ≤ 65535 then .ok (some (.setn n)) else .error .outOfRange) ∧
    assembleLine (['R', 'D', 'L', 'E', 'N', ' '] ++ t) =
      (if n ≤ 65535 then .ok (some (.rdlen n)) else .error .outOfRange) ∧
    assembleLine (['R', 'D', 'N', 'O', 'D', 'E', ' '] ++ t) =
      (if n ≤ 65535 then .ok (some (.rdnode n)) else .error .outOfRange)) ∧
  (∀ (t u : List Char) (i l : Nat), SpellsNumber t i → SpellsNumber u l →
    assembleLine (['L', 'D', 'L', 'E', 'N', ' '] ++ t ++ [',', ' '] ++ u) =
      (if i ≤ 65535 ∧ l ≤ 255 then .ok (some (.ldlen i l)) else .error .outOfRange)) ∧
  (∀ l c : List Char, ';' ∉ l → assembleLine (l ++ ';' :: c) = assembleLine l)

/-! ### The step (20_memory.md, 60_exceptions.md) -/

/-- R224, R86: a command word that the host writes to CMD while st = IDLE is accepted, decoded and run, in the same step;
and the word that withFetchWord places is the one run (withFetchWord is the model's, log entry 10). -/
def Obligations.StepRunsDecodedCommand : Prop :=
  ∀ (s : State) (w : Word) (i : Instr), decodeWord w = .ok i →
    (∀ rest, s.st = .idle → WritesCommand s w rest → step s = exec i rest) ∧
    (step (s.withFetchWord 32 w.toNat) = exec i { s with st := .idle })

/-- R223: a command word written while BUSY = 1 is dropped and sets OVERRUN, which only a NOP or reset clears. -/
def Obligations.BusyWriteDroppedOverrunSticky : Prop :=
  (∀ (s rest : State) (w : Word), s.st = .building ∨ s.st = .decoding → WritesCommand s w rest →
    step s = .next { rest with overrun := true }) ∧
  (∀ s t : State, step s = .next t → s.overrun = true → t.overrun = false →
    ResetNext s ∨ (s.st = .idle ∧ ∃ rest, WritesCommand s 0x00000000#32 rest))

/-- R222: a step that raises CONTRACT enters HALTED; there every command word is dropped with no state change, register
reads work, STATUS shows HALTED = 1 and BUSY = 0, only reset leaves HALTED, and with nothing left for the host to do the
machine stands in a fault. That last clause is the model's: HALTED as a fault that still answers the host is log entry 12,
the list of turns log entry 7. -/
def Obligations.HaltedDropsCommandsUntilReset : Prop :=
  (∀ s t : State, step s = .next t → s.err ≠ .contract → t.err = .contract → t.st = .halted) ∧
  ∀ s : State, s.st = .halted →
    (∀ (w : Word) (rest : State), WritesCommand s w rest → step s = .next rest) ∧
    (∀ (k : Nat) (rest : State), k < 16 → HostNext s (.memRead (s.cfg.htbBase + 4 * k) 4) rest →
      step s = .next { rest with hostReads := s.regWord (HostReg.ofIndex k) :: s.hostReads }) ∧
    s.statusWord.getLsbD 3 = true ∧ s.statusWord.getLsbD 0 = false ∧
    (∀ t, step s = .next t → t.st = .halted ∨ ResetNext s) ∧
    (s.turns = [] → s.host = [] → step s = .fault .halted)

/-- R61, R63: what a read of each offset returns, that a read has no side effect on the block, that a write to CMD presents
a command word, and that a write to any other register is ignored. -/
def Obligations.RegisterMap : Prop :=
  ∀ (s rest : State) (k : Nat), k < 16 →
    (HostNext s (.memRead (s.cfg.htbBase + 4 * k) 4) rest →
      step s = .next { rest with hostReads :=
        (if k = 1 then s.statusWord
          else if k = 2 then s.rval.setWidth 32
          else if k = 3 then s.nsym.setWidth 32
          else if k = 4 then s.nnodes.setWidth 32
          else if k = 5 then s.bitcnt.setWidth 32
          else if k = 6 then s.nodeIdx
          else if k = 7 then s.nodeVal
          else if k = 8 then s.idWord
          else 0#32) :: s.hostReads }) ∧
    (∀ v : Word, HostNext s (.memWrite (s.cfg.htbBase + 4 * k) 4 v) rest →
      step s = if k = 0 then writeCommand v rest else .next rest)

/-- R62: a host access that is not one aligned 32-bit word of the window has no meaning in the model: it is refused (log
entry 11). -/
def Obligations.AccessOutsidePortRefused : Prop :=
  ∀ (s rest : State) (addr size : Nat) (v : Word),
    (size ≠ 4 ∨ ∀ k < 16, addr ≠ s.cfg.htbBase + 4 * k) →
    (HostNext s (.memRead addr size) rest ∨ HostNext s (.memWrite addr size v) rest) →
    step s = .refused .hostAccessOutsidePort

/-- R23, R220: the fields of the STATUS word by their bit numbers, with the number of each error code; the reserved bits
read 0. -/
def Obligations.StatusFields : Prop :=
  ∀ s : State,
    s.statusWord.getLsbD 0 = (decide (s.st = .building) || decide (s.st = .decoding)) ∧
    s.statusWord.getLsbD 1 = s.treeValid ∧
    s.statusWord.getLsbD 2 = s.resultValid ∧
    s.statusWord.getLsbD 3 = decide (s.st = .halted) ∧
    s.statusWord.getLsbD 4 = s.overrun ∧
    s.statusWord.extractLsb 7 5 = 0 ∧
    s.statusWord.extractLsb 11 8 = (match s.err with
      | .ok => 0#4 | .contract => 1#4 | .empty => 2#4 | .equal => 3#4
      | .trunc => 4#4 | .notree => 5#4 | .index => 6#4 | .illegal => 7#4) ∧
    s.statusWord.extractLsb 15 12 = s.lastop ∧
    s.statusWord.extractLsb 31 16 = 0

/-- R30: ID shows NSYM_MAX, MAXLEN = 0x20 and REV = 0x01, and no step changes it, the reset input's among them. -/
def Obligations.IdRegisterConstant : Prop :=
  (∀ s : State, s.cfg.WellFormed →
    (s.idWord.extractLsb 15 0).toNat = s.cfg.nsymMax ∧ s.idWord.extractLsb 23 16 = 0x20 ∧
      s.idWord.extractLsb 31 24 = 0x01) ∧
  (∀ s t : State, step s = .next t → t.idWord = s.idWord)

/-- R260, R261: the reset input, in any state, sets every item to its reset value, abandons a running command, and does not
reset the bit source. -/
def Obligations.ResetInputResetsBlock : Prop :=
  ∀ (s : State) (ts : List Turn), s.turns = .reset :: ts → ∃ t, step s = .next t ∧
    t.st = .idle ∧ t.statusWord = 0 ∧ t.treeValid = false ∧ t.resultValid = false ∧ t.overrun = false ∧ t.err = .ok ∧
    t.lastop = 0 ∧ t.rval = 0 ∧ t.nsym = 0 ∧ t.nnodes = 0 ∧ t.bitcnt = 0 ∧ t.nodeIdx = 0 ∧ t.nodeVal = 0 ∧
    t.idWord = s.idWord ∧ (∀ i, Memory.read t.len i = none) ∧ (∀ i, Memory.read t.nodes i = none) ∧
    t.nextNode = 0 ∧ t.cur = 0 ∧
    t.cfg = s.cfg ∧ t.source = s.source

/-- R260: the state after reset. The ID word is R30's for NSYM_MAX = 258, the default of R5, which State.reset has by the
model's choice of parameters (log entry 3). -/
def Obligations.ResetState : Prop :=
  State.reset.st = .idle ∧ State.reset.statusWord = 0 ∧ State.reset.rval = 0 ∧ State.reset.nsym = 0 ∧
    State.reset.nnodes = 0 ∧ State.reset.bitcnt = 0 ∧ State.reset.nodeIdx = 0 ∧ State.reset.nodeVal = 0 ∧
    State.reset.nextNode = 0 ∧ State.reset.cur = 0 ∧ State.reset.idWord = 0x01200102#32 ∧
    (∀ i, Memory.read State.reset.len i = none) ∧ (∀ i, Memory.read State.reset.nodes i = none)

/-- R22: the control state changes only as the table of transitions says, each row with its event. -/
def Obligations.ControlTransitions : Prop :=
  ∀ s t : State, step s = .next t → t.st ≠ s.st →
    (s.st = .idle ∧ t.st = .building ∧ 2 ≤ s.nsym.toNat ∧ s.nsym.toNat ≤ s.cfg.nsymMax ∧
      ∃ rest, WritesCommand s 0x40000000#32 rest) ∨
    (s.st = .idle ∧ t.st = .halted ∧ (s.nsym.toNat < 2 ∨ s.cfg.nsymMax < s.nsym.toNat) ∧
      ∃ rest, WritesCommand s 0x40000000#32 rest) ∨
    (s.st = .building ∧ t.st = .idle ∧ ∃ rest, BlockNext s rest) ∨
    (s.st = .idle ∧ t.st = .decoding ∧ s.treeValid = true ∧ ∃ rest, WritesCommand s 0x50000000#32 rest) ∨
    (s.st = .decoding ∧ t.st = .idle ∧ (∃ rest, BlockNext s rest) ∧
      (s.source.answer = .eos ∨
        ∃ b, s.source.answer = .bit b ∧ (slotOf (nodeAt s.nodes s.cur.toNat) b).1 = 0xFFFF#16)) ∨
    (t.st = .idle ∧ ResetNext s)

/-- R183: the block reads the bit source only in its own step while st = DECODING, one bit at a time, and never otherwise
changes it. -/
def Obligations.BitSourceReadOnlyWhileDecoding : Prop :=
  ∀ s t : State, step s = .next t → t.source ≠ s.source →
    s.st = .decoding ∧ (∃ rest, BlockNext s rest) ∧ (∃ b, s.source.answer = .bit b) ∧ t.source = s.source.advance

/-- R24: RESULT shows RVAL, and RVAL is written only by a successful DECODE or RDLEN (and by reset). -/
def Obligations.ResultWrittenOnlyOnSuccess : Prop :=
  (∀ s : State, s.regWord .result = 0#16 ++ s.rval) ∧
  (∀ s t : State, step s = .next t → t.rval ≠ s.rval →
    ResetNext s ∨
    (t.resultValid = true ∧ t.st = .idle ∧
      ((s.st = .decoding ∧ ∃ rest, BlockNext s rest) ∨
        (s.st = .idle ∧ t.err = .ok ∧ ∃ i rest, i < s.cfg.nsymMax ∧ WritesCommand s (encode (.rdlen i)) rest))))

/-- R38: TREE_VALID is set only by a BUILD that completes with ERR = OK, cleared only by a BUILD's acceptance, DISCARD or
reset, and while it stays set no step changes the tree. -/
def Obligations.TreeImmutableWhileValid : Prop :=
  ∀ s t : State, Inv s → step s = .next t →
    (s.treeValid = false → t.treeValid = true → s.st = .building ∧ t.st = .idle ∧ t.err = .ok) ∧
    (s.treeValid = true → t.treeValid = false →
      ResetNext s ∨ (s.st = .idle ∧
        ∃ rest, WritesCommand s 0x40000000#32 rest ∨ WritesCommand s 0x60000000#32 rest)) ∧
    (s.treeValid = true → t.treeValid = true →
      t.nnodes = s.nnodes ∧ ∀ i, Memory.read t.nodes i = Memory.read s.nodes i)

/-- R33: no rule reads NODES while TREE_VALID = 0: outside a command in progress, two states that differ in the node array
alone take the same step, and still differ in it alone. -/
def Obligations.NodesUnreadWithoutTree : Prop :=
  ∀ (s t : State) (ns : List (Nat × Node)), s.treeValid = false → s.st = .idle ∨ s.st = .halted →
    step s = .next t → ∃ t', step { s with nodes := ns } = .next t' ∧ { t' with nodes := t.nodes } = t

/-! ### The commands (40_config_commands.md, 41_build.md, 42_decode.md, 43_debug.md) -/

/-- R224, R221, R225: every command completes its acceptance step, whatever the state and the operands: it never faults and
is never refused. It leaves LASTOP and ERR as said, and the parameters, the node array, CODES and PAIRS, NEXT_NODE, the bit
source and the host's side as they were. -/
def Obligations.EveryCommandAnswersNext : Prop :=
  ∀ (i : Instr) (s : State), ∃ t, exec i s = .next t ∧ t.lastop = opcode i ∧
    (t.err = .ok ∨ t.err = .index ∨ t.err = .notree ∨ t.err = .contract) ∧
    (t.resultValid = true → t.err = .ok ∧ ∃ x, i = .rdlen x) ∧
    t.cfg = s.cfg ∧ (∀ a, Memory.read t.nodes a = Memory.read s.nodes a) ∧ t.nextNode = s.nextNode ∧
    t.pairs = s.pairs ∧ t.codes = s.codes ∧ t.source = s.source ∧ t.host = s.host ∧ t.turns = s.turns ∧
    t.hostReads = s.hostReads

/-- R100: NOP clears OVERRUN and changes nothing else but what acceptance does; it has one word; no other command clears
OVERRUN (of illegal words, the block's own steps and reset BusyWriteDroppedOverrunSticky speaks). -/
def Obligations.NopClearsOverrunOnly : Prop :=
  (∀ s : State, exec .nop s =
    .next { s with lastop := 0x0#4, err := .ok, resultValid := false, overrun := false }) ∧
  (∀ w : Word, decodeWord w = .ok .nop ↔ w = 0x00000000#32) ∧
  (∀ (i : Instr) (s t : State), exec i s = .next t → i ≠ .nop → t.overrun = s.overrun)

/-- R101: SETN sets NSYM, or raises INDEX with NSYM unchanged when n > NSYM_MAX. -/
def Obligations.SetnSetsAlphabetSize : Prop :=
  ∀ (n : Nat) (s : State), s.st = .idle → s.cfg.WellFormed →
    (n ≤ s.cfg.nsymMax → ∃ t, exec (.setn n) s = .next t ∧ t.nsym.toNat = n ∧
      t = { s with lastop := 0x1#4, err := .ok, resultValid := false, nsym := t.nsym }) ∧
    (s.cfg.nsymMax < n → exec (.setn n) s =
      .next { s with lastop := 0x1#4, err := .index, resultValid := false })

/-- R102: LDLEN writes the one entry, any 8-bit length, or raises INDEX with LEN unchanged when i >= NSYM_MAX. -/
def Obligations.LdlenWritesOneEntry : Prop :=
  ∀ (i l : Nat) (s : State), s.st = .idle → l < 256 →
    (i < s.cfg.nsymMax → ∃ t, exec (.ldlen i l) s = .next t ∧
      Memory.read t.len i = some (BitVec.ofNat 8 l) ∧
      (∀ j, j ≠ i → Memory.read t.len j = Memory.read s.len j) ∧
      t = { s with lastop := 0x2#4, err := .ok, resultValid := false, len := t.len }) ∧
    (s.cfg.nsymMax ≤ i → exec (.ldlen i l) s =
      .next { s with lastop := 0x2#4, err := .index, resultValid := false })

/-- R103, R39: RDLEN returns a written entry zero-extended; an unwritten one as the next free draw, whatever it is; and
raises INDEX with RVAL unchanged when i >= NSYM_MAX. The draw counter is the model's own (log entry 4). -/
def Obligations.RdlenReturnsEntry : Prop :=
  ∀ (i : Nat) (s : State), s.st = .idle →
    (∀ v, i < s.cfg.nsymMax → Memory.read s.len i = some v → exec (.rdlen i) s =
      .next { s with lastop := 0x3#4, err := .ok, resultValid := true, rval := 0#8 ++ v }) ∧
    (i < s.cfg.nsymMax → Memory.read s.len i = none → exec (.rdlen i) s =
      .next { s with lastop := 0x3#4, err := .ok, resultValid := true, rval := 0#8 ++ Config.freeLen s.draws,
                     draws := s.draws + 1 }) ∧
    (s.cfg.nsymMax ≤ i → exec (.rdlen i) s =
      .next { s with lastop := 0x3#4, err := .index, resultValid := false })

/-- R104: DISCARD clears TREE_VALID and NNODES, with or without a tree, and leaves NODES. -/
def Obligations.DiscardDropsTree : Prop :=
  ∀ s : State, exec .discard s =
    .next { s with lastop := 0x6#4, err := .ok, resultValid := false, treeValid := false, nnodes := 0 }

/-- R130, the acceptance step: the old tree is discarded and the block is BUILDING. -/
def Obligations.BuildAccepted : Prop :=
  ∀ s : State, 2 ≤ s.nsym.toNat → s.nsym.toNat ≤ s.cfg.nsymMax → exec .build s =
    .next { s with lastop := 0x4#4, err := .ok, resultValid := false, treeValid := false, nnodes := 0, st := .building }

/-- R131: with NSYM < 2 or NSYM > NSYM_MAX, BUILD does not start: CONTRACT, and the block is HALTED. -/
def Obligations.BuildContractViolationHalts : Prop :=
  ∀ s : State, s.nsym.toNat < 2 ∨ s.cfg.nsymMax < s.nsym.toNat → exec .build s =
    .next { s with lastop := 0x4#4, err := .contract, resultValid := false, treeValid := false, nnodes := 0, st := .halted }

/-- R180, the acceptance step: with a tree, the walk begins at the root with no bit consumed. -/
def Obligations.DecodeAccepted : Prop :=
  ∀ s : State, s.treeValid = true → exec .decode s =
    .next { s with lastop := 0x5#4, err := .ok, resultValid := false, cur := 0, bitcnt := 0, st := .decoding }

/-- R181: without a tree DECODE raises NOTREE, reads no bit, and leaves CUR and BITCNT. -/
def Obligations.DecodeWithoutTree : Prop :=
  ∀ s : State, s.st = .idle → s.treeValid = false → exec .decode s =
    .next { s with lastop := 0x5#4, err := .notree, resultValid := false }

/-- R210, R225: RDNODE shows a node's two index fields and two value fields; NOTREE comes before INDEX, and on either
NODE_IDX and NODE_VAL are unchanged. -/
def Obligations.RdnodeShowsNode : Prop :=
  ∀ (i : Nat) (s : State), s.st = .idle →
    (∀ d, s.treeValid = true → i < s.nnodes.toNat → Memory.read s.nodes i = some d → exec (.rdnode i) s =
      .next { s with lastop := 0x7#4, err := .ok, resultValid := false,
                     nodeIdx := d.ridx ++ d.lidx, nodeVal := d.rval ++ d.lval }) ∧
    (s.treeValid = false → exec (.rdnode i) s =
      .next { s with lastop := 0x7#4, err := .notree, resultValid := false }) ∧
    (s.treeValid = true → s.nnodes.toNat ≤ i → exec (.rdnode i) s =
      .next { s with lastop := 0x7#4, err := .index, resultValid := false })

/-! ### BuildTree (41_build.md) -/

/-- R132: PAIRS holds one pair for each symbol 0..N-1, with LEN[s] as its length (an unwritten entry giving some length,
R39), in strictly ascending order of (length, symbol). -/
def Obligations.PairsAscendByLengthThenSymbol : Prop :=
  ∀ s : State,
    (s.sortedPairs.map Pair.symbol).Perm ((List.range s.nsym.toNat).map (BitVec.ofNat 16)) ∧
    (∀ (i : Nat) (v : Byte), i < s.nsym.toNat → Memory.read s.len i = some v →
      (⟨v, BitVec.ofNat 16 i⟩ : Pair) ∈ s.sortedPairs) ∧
    s.sortedPairs.Pairwise fun a b =>
      a.length.toNat < b.length.toNat ∨ (a.length.toNat = b.length.toNat ∧ a.symbol.toNat < b.symbol.toNat)

/-- R133, R134: entry i of CODES has symbol i's, the tracker lowered to the least length from i on (32 at most), and for
its code the sum modulo 2^32 of the increments 2^(32 - t) of the entries walked before it, an increment being 0 when t = 0. -/
def Obligations.StoredCodesSumIncrements : Prop :=
  ∀ (ps : List Pair) (i : Nat) (p : Pair), ps[i]? = some p → ∃ x, (assignCodes ps).codes[i]? = some x ∧
    x.symbol = p.symbol ∧
    x.clen.toNat = (ps.drop i).foldr (fun q m => min q.length.toNat m) 32 ∧
    x.code.toNat = (((assignCodes ps).codes.drop (i + 1)).map fun y => 2 ^ (32 - y.clen.toNat) % 2 ^ 32).sum % 2 ^ 32

/-- R135: step 4 sorts CODES ascending by the unsigned code, and entries with equal codes keep their order. -/
def Obligations.CodesSortedStably : Prop :=
  ∀ s : State, s.formCodes.codes.Perm (assignCodes s.pairs).codes ∧
    (s.formCodes.codes.Pairwise fun a b => a.code.toNat ≤ b.code.toNat) ∧
    ∀ c : Word, (s.formCodes.codes.filter fun x => decide (x.code = c)) =
      (assignCodes s.pairs).codes.filter fun x => decide (x.code = c)

/-- R141: the completion step ends in IDLE; on success NNODES is NEXT_NODE and TREE_VALID is 1; otherwise ERR is EMPTY or
EQUAL and TREE_VALID and NNODES are as before; nothing else changes but the node array, NEXT_NODE and the model's draw
counter (log entry 4). That PAIRS and CODES are empty before the step and after it is the model's (log entry 9). -/
def Obligations.BuildCompletionCommits : Prop :=
  ∀ s rest : State, s.st = .building → s.pairs = [] → s.codes = [] → BlockNext s rest → ∃ t, step s = .next t ∧
    t = { rest with st := .idle, err := t.err, treeValid := t.treeValid, nnodes := t.nnodes, nodes := t.nodes,
                    nextNode := t.nextNode, draws := t.draws } ∧
    ((t.treeValid = true ∧ t.nnodes = t.nextNode ∧ t.err = s.err) ∨
      ((t.err = .empty ∨ t.err = .equal) ∧ t.treeValid = s.treeValid ∧ t.nnodes = s.nnodes))

/-- R143: for N >= 2 BUILD completes with a tree exactly when the N stored codes are pairwise distinct, and otherwise
with EQUAL. -/
def Obligations.BuildSucceedsIffCodesDistinct : Prop :=
  ∀ s rest : State, s.st = .building → s.treeValid = false → s.err = .ok → 2 ≤ s.nsym.toNat → BlockNext s rest →
    ∃ t, step s = .next t ∧
      (CodesDistinct s → t.treeValid = true ∧ t.err = .ok) ∧
      (¬ CodesDistinct s → t.treeValid = false ∧ t.err = .equal)

/-- R143 (a): lengths in 1..32 with a Kraft sum of at most 1 give distinct codes, so the build succeeds; the sum need not
be 1 (R148). -/
def Obligations.BuildSucceedsUnderKraft : Prop :=
  ∀ s rest : State, s.st = .building → s.treeValid = false → 2 ≤ s.nsym.toNat → LensWritten s → LensInRange s →
    kraftSum s ≤ 2 ^ 32 → BlockNext s rest → ∃ t, step s = .next t ∧ t.treeValid = true ∧ t.err = s.err

/-- R143 (b): two symbols of length 0 always make the build fail with EQUAL. -/
def Obligations.TwoZeroLengthsFail : Prop :=
  ∀ (s rest : State) (i j : Nat), s.st = .building → s.treeValid = false → i < j → j < s.nsym.toNat →
    Memory.read s.len i = some 0 → Memory.read s.len j = some 0 → BlockNext s rest →
    ∃ t, step s = .next t ∧ t.treeValid = false ∧ t.err = .equal

/-- R143 (c): with one length of 0 and the others in 1..32, the build fails with EQUAL when the others are complete (their
Kraft sum is 1), and succeeds when they are incomplete. -/
def Obligations.OneZeroLengthFailsIffComplete : Prop :=
  ∀ (s rest : State) (z : Nat), s.st = .building → s.treeValid = false → 2 ≤ s.nsym.toNat → LensWritten s →
    z < s.nsym.toNat → lenOf s z = 0 → (∀ i < s.nsym.toNat, i ≠ z → 1 ≤ lenOf s i ∧ lenOf s i ≤ 32) →
    BlockNext s rest → ∃ t, step s = .next t ∧
      (kraftSum s = 2 ^ 32 + 2 ^ 32 → t.treeValid = false ∧ t.err = .equal) ∧
      (kraftSum s < 2 ^ 32 + 2 ^ 32 → t.treeValid = true ∧ t.err = s.err)

/-- R144, R142: a successful build allocates exactly N - 1 nodes, numbered from 0; a build, successful or not, writes no
NODES entry at N - 1 or above. -/
def Obligations.BuildAllocatesNodesForLeaves : Prop :=
  ∀ s rest : State, s.st = .building → s.treeValid = false → 2 ≤ s.nsym.toNat → BlockNext s rest →
    ∃ t, step s = .next t ∧
      (t.treeValid = true → t.nnodes.toNat = s.nsym.toNat - 1 ∧ t.nextNode = t.nnodes) ∧
      (∀ i, s.nsym.toNat - 1 ≤ i → Memory.read t.nodes i = Memory.read s.nodes i)

/-- R146, R137: in the tree of a successful build, each symbol's stream code (the complement of its stored code's bits at
the levels where nodes are) leads from the root to that symbol, and has 1 to 32 bits (R145). -/
def Obligations.StreamCodeLeadsToSymbol : Prop :=
  ∀ s rest : State, s.st = .building → s.treeValid = false → 2 ≤ s.nsym.toNat → CodesDistinct s → BlockNext s rest →
    ∃ t, step s = .next t ∧ ∀ x ∈ storedCodes s,
      leads t.nodes (streamCode 32 (sortStable Triple.le (storedCodes s)) x.code) 0 = some x.symbol ∧
      1 ≤ (streamCode 32 (sortStable Triple.le (storedCodes s)) x.code).length ∧
      (streamCode 32 (sortStable Triple.le (storedCodes s)) x.code).length ≤ 32

/-- R147: for lengths in 1..32 with a Kraft sum of exactly 1, the tree decodes the canonical code: the LEN-bit number of
each entry of PAIRS leads from the root to its symbol. -/
def Obligations.CompleteCodeDecodesCanonically : Prop :=
  ∀ s rest : State, s.st = .building → s.treeValid = false → 2 ≤ s.nsym.toNat → LensWritten s → LensInRange s →
    kraftSum s = 2 ^ 32 → BlockNext s rest →
    ∃ t, step s = .next t ∧ t.treeValid = true ∧ ∀ k p, s.sortedPairs[k]? = some p →
      leads t.nodes (canonicalCode s.sortedPairs k p) 0 = some p.symbol

/-- R226, R71: what a build leaves depends on NSYM and the lengths alone: not on the old node array, on LEN entries at NSYM
and above, or on free draws. -/
def Obligations.BuildDependsOnLengthsOnly : Prop :=
  ∀ s s' rest rest' : State, s.st = .building → s'.st = .building → 2 ≤ s.nsym.toNat → s'.nsym = s.nsym →
    s.treeValid = false → s'.treeValid = false → s.err = .ok → s'.err = .ok →
    LensWritten s → (∀ i < s.nsym.toNat, Memory.read s'.len i = Memory.read s.len i) →
    BlockNext s rest → BlockNext s' rest' →
    ∃ t t', step s = .next t ∧ step s' = .next t' ∧ t'.treeValid = t.treeValid ∧ t'.err = t.err ∧
      t'.nextNode = t.nextNode ∧ (t.treeValid = true → ∀ i < t.nnodes.toNat,
        Memory.read t'.nodes i = Memory.read t.nodes i)

/-! ### Decoding (42_decode.md) -/

/-- R182: a traversal step consumes the bit, counts it, and follows the slot it selects, left for 1 and right for 0: a leaf
ends the command with its symbol, a node index moves CUR. -/
def Obligations.TraversalStep : Prop :=
  ∀ (s rest : State) (b : Bool) (d : Node), s.st = .decoding → s.source.answer = .bit b →
    Memory.read s.nodes s.cur.toNat = some d → BlockNext s rest →
    ((if b then d.lidx else d.ridx) = 0xFFFF#16 → step s =
      .next { rest with source := { s.source with pos := s.source.pos + 1 }, bitcnt := s.bitcnt + 1,
                        rval := (if b then d.lval else d.rval), resultValid := true, st := .idle }) ∧
    ((if b then d.lidx else d.ridx) ≠ 0xFFFF#16 → step s =
      .next { rest with source := { s.source with pos := s.source.pos + 1 }, bitcnt := s.bitcnt + 1,
                        cur := (if b then d.lidx else d.ridx) })

/-- R184: EOS at any traversal step ends DECODE with TRUNC; RVAL, RESULT_VALID, CUR, BITCNT, TREE_VALID and the tree are as
they were. -/
def Obligations.TruncatedStreamEndsDecode : Prop :=
  ∀ s rest : State, s.st = .decoding → s.source.answer = .eos → BlockNext s rest →
    step s = .next { rest with err := .trunc, st := .idle }

/-- R183, R267: which answer the bit source gives; where it never answers, the block stays in DECODING, not faulted. The
three tails are the model's form of a stream (log entry 6). -/
def Obligations.BitSourceAnswers : Prop :=
  (∀ src : BitSource,
    (∀ b, src.bits[src.pos]? = some b → src.answer = .bit b) ∧
    (src.bits.length ≤ src.pos → src.tail = .eos → src.answer = .eos) ∧
    (src.bits.length ≤ src.pos → src.tail = .endless → ∃ b, src.answer = .bit b) ∧
    (src.bits.length ≤ src.pos → src.tail = .silent → src.answer = .pending)) ∧
  (∀ s rest : State, s.st = .decoding → s.source.answer = .pending → BlockNext s rest → step s = .next rest)

/-- R187, R188: on a built tree every DECODE ends: after at most 32 bits a leaf is reached, or the source answers EOS
first; nothing else can happen. That the block moves at each step is the model's schedule (log entry 7). -/
def Obligations.DecodeEndsWithin32Bits : Prop :=
  ∀ s : State, Inv s → s.st = .decoding → s.turns = [] → s.source.tail ≠ .silent →
    ∃ n ≤ 32, ∃ t, Sys2Proof.core.run n s = .next t ∧ t.st = .idle ∧ t.bitcnt.toNat ≤ 32 ∧
      ((t.err = .ok ∧ t.resultValid = true ∧ t.rval.toNat ≤ s.nnodes.toNat) ∨
        (t.err = .trunc ∧ t.resultValid = false ∧ t.rval = s.rval))

/-- R185: a DECODE that begins at the root with a stream code next in the bit source returns that code's symbol, with BITCNT
its length, and consumes no further bit. That the block moves at each step is the model's schedule (log entry 7). -/
def Obligations.DecodeFollowsStreamCode : Prop :=
  ∀ (s : State) (bits more : List Bool) (v : Half), s.st = .decoding → s.turns = [] → s.cur = 0 → s.bitcnt = 0 →
    s.err = .ok → leads s.nodes bits 0 = some v → bits.length ≤ 32 →
    s.source.bits.drop s.source.pos = bits ++ more →
    ∃ t, Sys2Proof.core.run bits.length s = .next t ∧ t.st = .idle ∧ t.err = .ok ∧ t.resultValid = true ∧
      t.rval = v ∧ t.bitcnt.toNat = bits.length ∧ t.source.pos = s.source.pos + bits.length

/-- R235: in IDLE the block does nothing until a command is written, and all state is kept: its turn only uses itself up,
and with no turn listed and no host operation to come the machine stays as it is (the turns are the model's, log entry
7). -/
def Obligations.IdleBlockWaits : Prop :=
  ∀ s : State, s.st = .idle →
    (∀ ts, s.turns = .block :: ts → step s = .next { s with turns := ts }) ∧
    (s.turns = [] → s.host = [] → step s = .next s)

/-! ### Invariant -/

/-- The invariant holds right after reset. -/
def Obligations.InvariantAtReset : Prop := Inv State.reset

/-- Every step keeps the invariant, from every state that meets it. -/
def Obligations.StepKeepsInvariant : Prop := ∀ s t : State, Inv s → step s = .next t → Inv t

/-! ### Worked examples (95_test_vectors.md) -/

/-- V-B1 (R130's example): LEN = [1, 2, 2] builds two nodes; V-B7: LEN = [32, 0, 0] fails with EQUAL at level 32 (R139). -/
def Obligations.BuildWorkedExamples : Prop :=
  (∃ t, step { State.reset with st := .building, nsym := 3, len := [(0, 1), (1, 2), (2, 2)] } = .next t ∧
    t.st = .idle ∧ t.err = .ok ∧ t.treeValid = true ∧ t.nnodes = 2 ∧
    t.nodes = [(0, ⟨1, 0xFFFF, 0, 0⟩), (1, ⟨0xFFFF, 0xFFFF, 2, 1⟩)]) ∧
  (∃ t, step { State.reset with st := .building, nsym := 3, len := [(0, 32), (1, 0), (2, 0)] } = .next t ∧
    t.st = .idle ∧ t.err = .equal ∧ t.treeValid = false ∧ t.nnodes = 0)

/-- R88: WAIT reads STATUS until BUSY = 0: while the block is busy it stays the host's next operation, and it ends with the
first read that shows BUSY = 0. That WAIT is one operation, with one read in each of the host's moves, is the model's choice
(log entry 16). -/
def Obligations.WaitPollsStatus : Prop :=
  ∀ s rest : State, HostNext s .wait rest →
    (s.statusWord.getLsbD 0 = true →
      step s = .next { rest with hostReads := s.statusWord :: s.hostReads, host := .wait :: rest.host }) ∧
    (s.statusWord.getLsbD 0 = false → step s = .next { rest with hostReads := s.statusWord :: s.hostReads })
end

