-- ==== Sys2Proof/Laws/Assembler.lean ====
section
/-! SUPPORT. How the assembler reads a line (30_encoding.md R87): number texts, the operands between commas, and the line as a
mnemonic with its operands. -/

namespace Sys2Proof.Machine

/-! ### Numbers -/

/-- A digit's character has that digit's value and is none of the syntax's own characters. -/
theorem digitChar_facts : ∀ d < 16, digitValue (Nat.digitChar d) = some d ∧ Nat.digitChar d ≠ ' ' ∧
    Nat.digitChar d ≠ ',' ∧ Nat.digitChar d ≠ ';' ∧ Nat.digitChar d ≠ 'x' := by decide

theorem digitsFrom_map {base : Nat} (hb : base ≤ 16) (ds : List Nat) (h : ∀ d ∈ ds, d < base) (n : Nat) :
    digitsFrom base n (ds.map Nat.digitChar) = some (ds.foldl (fun n d => base * n + d) n) := by
  induction ds generalizing n with
  | nil => rfl
  | cons d ds ih =>
    have hd := h d (by simp)
    simp only [List.map_cons, digitsFrom, (digitChar_facts d (by omega)).1, if_pos hd, List.foldl_cons]
    exact ih (fun x hx => h x (by simp [hx])) _

theorem SpellsNumber.parse {t : List Char} {n : Nat} (h : SpellsNumber t n) : parseNumber t = some n := by
  obtain ⟨ds, hne, ⟨hd, rfl, rfl⟩ | ⟨hd, rfl, rfl⟩⟩ := h
  · have hm := digitsFrom_map (by omega) ds hd 0
    match ds, hne with
    | d :: ds, _ =>
      have hx : ∀ c ∈ ds.map Nat.digitChar, c ≠ 'x' := by
        intro c hc
        obtain ⟨e, he, rfl⟩ := List.mem_map.mp hc
        exact (digitChar_facts e (by have := hd e (by simp [he]); omega)).2.2.2.2
      rw [List.map_cons] at hm ⊢
      unfold parseNumber
      split
      · next c cs heq =>
        rw [List.cons.injEq] at heq
        exact absurd rfl (hx 'x' (by rw [heq.2]; simp))
      · next heq => rw [← heq]; exact hm
      · next heq => cases heq
  · match ds, hne with
    | d :: ds, _ => exact digitsFrom_map (by omega) (d :: ds) hd 0

/-- A number's text is not empty and holds no space, comma or semicolon. -/
theorem SpellsNumber.chars {t : List Char} {n : Nat} (h : SpellsNumber t n) :
    t ≠ [] ∧ ∀ c ∈ t, c ≠ ' ' ∧ c ≠ ',' ∧ c ≠ ';' := by
  have key : ∀ ds : List Nat, (∀ d ∈ ds, d < 16) → ∀ c ∈ ds.map Nat.digitChar, c ≠ ' ' ∧ c ≠ ',' ∧ c ≠ ';' := by
    intro ds hd c hc
    obtain ⟨e, he, rfl⟩ := List.mem_map.mp hc
    have := digitChar_facts e (hd e he)
    exact ⟨this.2.1, this.2.2.1, this.2.2.2.1⟩
  obtain ⟨ds, hne, ⟨hd, rfl, -⟩ | ⟨hd, rfl, -⟩⟩ := h
  · exact ⟨by simpa using hne, key ds fun d h => by have := hd d h; omega⟩
  · refine ⟨by simp, fun c hc => ?_⟩
    rcases List.mem_cons.mp hc with rfl | hc
    · decide
    · rcases List.mem_cons.mp hc with rfl | hc
      · decide
      · exact key ds hd c hc

/-! ### Operands -/

theorem splitOperands_cons {c : Char} (h : c ≠ ',') (cs : List Char) :
    splitOperands (c :: cs) = consFirst c (splitOperands cs) := by
  rw [splitOperands]
  rintro cs' rfl
  exact absurd rfl h

theorem splitOperands_one (t : List Char) (h : ∀ c ∈ t, c ≠ ',') : splitOperands t = [t] := by
  induction t with
  | nil => rfl
  | cons c t ih => rw [splitOperands_cons (h c (by simp)), ih fun x hx => h x (by simp [hx])]; rfl

theorem splitOperands_append (t u : List Char) (h : ∀ c ∈ t, c ≠ ',') :
    splitOperands (t ++ ',' :: ' ' :: u) = t :: splitOperands u := by
  induction t with
  | nil => rfl
  | cons c t ih =>
    rw [List.cons_append, splitOperands_cons (h c (by simp)), ih fun x hx => h x (by simp [hx])]; rfl

/-! ### Lines -/

theorem takeWhile_ne_append {c : Char} (l r : List Char) (h : c ∉ l) :
    (l ++ c :: r).takeWhile (· ≠ c) = l ∧ (l ++ c :: r).dropWhile (· ≠ c) = c :: r := by
  induction l with
  | nil => simp
  | cons x l ih =>
    simp only [List.mem_cons, not_or] at h
    obtain ⟨h1, h2⟩ := ih h.2
    have hx : decide (x ≠ c) = true := by simpa using Ne.symm h.1
    simp only [List.cons_append, List.takeWhile_cons, List.dropWhile_cons, hx, if_true, h1, h2, and_self]

theorem takeWhile_ne_self {c : Char} (l : List Char) (h : c ∉ l) : l.takeWhile (· ≠ c) = l := by
  rw [List.takeWhile_eq_self_iff]
  intro x hx
  simpa using fun he : x = c => h (he ▸ hx)

/-- `;` starts a comment (R87). -/
theorem lineBody_comment (l c : List Char) (h : ';' ∉ l) : lineBody (l ++ ';' :: c) = lineBody l := by
  rw [lineBody, lineBody, (takeWhile_ne_append l c h).1, takeWhile_ne_self l h]

/-- A line without a comment and without a space at either end is its own body. -/
theorem lineBody_self (l : List Char) (h : ';' ∉ l) (h1 : l.head? ≠ some ' ') (h2 : l.getLast? ≠ some ' ') :
    lineBody l = l := by
  have drop : ∀ k : List Char, k.head? ≠ some ' ' → k.dropWhile (· = ' ') = k := by
    intro k hk
    cases k with
    | nil => rfl
    | cons x k =>
      have : decide (x = ' ') = false := by simpa using hk
      simp only [List.dropWhile_cons, this, Bool.false_eq_true, if_false]
  rw [lineBody, takeWhile_ne_self l h, drop l h1, drop l.reverse (by rwa [List.head?_reverse]), List.reverse_reverse]

/-- What a line comes to, its mnemonic and operands read. -/
def assembleForm (m : List Char) (xs : List Nat) : Except AsmError (Option Instr) :=
  match formOf m xs with
  | .ok i => if i.wf then .ok (some i) else .error .outOfRange
  | .error e => .error e

/-- A line that is a mnemonic, one space and operands. -/
theorem assembleLine_form (m t : List Char) (xs : List Nat) (hm : m ≠ []) (hm' : ∀ c ∈ m, c ≠ ' ' ∧ c ≠ ';')
    (ht : ';' ∉ t) (hl : (m ++ ' ' :: t).getLast? ≠ some ' ') (hx : (splitOperands t).mapM parseNumber = some xs) :
    assembleLine (m ++ ' ' :: t) = assembleForm m xs := by
  have hsp : ' ' ∉ m := fun h => (hm' _ h).1 rfl
  have hb : lineBody (m ++ ' ' :: t) = m ++ ' ' :: t := by
    refine lineBody_self _ ?_ ?_ hl
    · simp only [List.mem_append, List.mem_cons, not_or]
      exact ⟨fun h => (hm' _ h).2 rfl, by decide, ht⟩
    · match m, hm with
      | c :: m, _ => simpa using (hm' c (by simp)).1
  obtain ⟨h1, h2⟩ := takeWhile_ne_append m t hsp
  unfold assembleLine
  rw [hb]
  split
  · next h => simp at h
  · rw [h1, h2, parseOperands, hx]
    rfl

/-- One operand. -/
theorem assembleLine_one {m t : List Char} {n : Nat} (hm : m ≠ []) (hm' : ∀ c ∈ m, c ≠ ' ' ∧ c ≠ ';')
    (h : SpellsNumber t n) : assembleLine (m ++ ' ' :: t) = assembleForm m [n] := by
  obtain ⟨hne, hc⟩ := h.chars
  refine assembleLine_form m t [n] hm hm' (fun h => (hc _ h).2.2 rfl) ?_ ?_
  · intro hl
    have : t.getLast? = some ' ' := by
      rw [List.getLast?_append_of_ne_nil _ (by simp), List.getLast?_cons_of_ne_nil hne] at hl
      exact hl
    exact (hc _ (List.mem_of_getLast? this)).1 rfl
  · rw [splitOperands_one t fun c h => (hc c h).2.1]
    simp [h.parse]

/-- Two operands, separated by a comma and a space. -/
theorem assembleLine_two {m t u : List Char} {i l : Nat} (hm : m ≠ []) (hm' : ∀ c ∈ m, c ≠ ' ' ∧ c ≠ ';')
    (h : SpellsNumber t i) (h' : SpellsNumber u l) :
    assembleLine (m ++ ' ' :: (t ++ ',' :: ' ' :: u)) = assembleForm m [i, l] := by
  obtain ⟨hne, hc⟩ := h.chars
  obtain ⟨hne', hc'⟩ := h'.chars
  refine assembleLine_form m _ [i, l] hm hm' ?_ ?_ ?_
  · simp only [List.mem_append, List.mem_cons, not_or]
    exact ⟨fun h => (hc _ h).2.2 rfl, by decide, by decide, fun h => (hc' _ h).2.2 rfl⟩
  · intro hl
    have : u.getLast? = some ' ' := by
      rw [List.getLast?_append_of_ne_nil _ (by simp), List.getLast?_cons_of_ne_nil (by simp),
        List.getLast?_append_of_ne_nil _ (by simp), List.getLast?_cons_of_ne_nil (by simp),
        List.getLast?_cons_of_ne_nil hne'] at hl
      exact hl
    exact (hc' _ (List.mem_of_getLast? this)).1 rfl
  · rw [splitOperands_append t u fun c h => (hc c h).2.1, splitOperands_one u fun c h => (hc' c h).2.1]
    simp [h.parse, h'.parse]

end Sys2Proof.Machine
end

