-- ==== Sys2Proof/Laws/Memory.lean ====
section
/-! SUPPORT. The laws of the sparse arrays: read after write, and that a write keeps the canonical form. -/

namespace Sys2Proof.Machine.Memory

variable {α : Type}

@[simp] theorem read_write_same (m : List (Nat × α)) (a : Nat) (v : α) : read (write m a v) a = some v := by
  induction m with
  | nil => simp [write, read]
  | cons e m ih =>
    obtain ⟨b, u⟩ := e
    simp only [write]
    split
    · simp [read]
    · split
      · simp [read]
      · simp [read, *]

theorem read_write_other (m : List (Nat × α)) {a c : Nat} (v : α) (h : c ≠ a) :
    read (write m a v) c = read m c := by
  induction m with
  | nil => simp [write, read, h]
  | cons e m ih =>
    obtain ⟨b, u⟩ := e
    simp only [write]
    split
    · simp [read, h]
    · split
      · next hb => subst hb; simp [read, h]
      · simp [read, ih]

theorem read_write (m : List (Nat × α)) (a c : Nat) (v : α) :
    read (write m a v) c = if c = a then some v else read m c := by
  split
  · next h => subst h; exact read_write_same m c v
  · next h => exact read_write_other m v h

/-- The first index of a canonical array comes before the index of anything written after it. -/
theorem wf_cons_write (b : Nat) (u : α) (m : List (Nat × α)) (a : Nat) (v : α)
    (hba : b < a) (hm : wf ((b, u) :: m) = true) (hw : wf (write m a v) = true) :
    wf ((b, u) :: write m a v) = true := by
  cases m with
  | nil => simp [write, wf, hba]
  | cons e m =>
    obtain ⟨c, w⟩ := e
    simp only [wf, Bool.and_eq_true, decide_eq_true_eq] at hm
    simp only [write] at hw ⊢
    split at hw <;> rename_i h1
    · simp only [h1, if_true, wf, Bool.and_eq_true, decide_eq_true_eq] at hw ⊢
      exact ⟨hba, hw⟩
    · split at hw <;> rename_i h2
      · rw [if_neg h1, if_pos h2]
        cases m with
        | nil => simp [wf, hba]
        | cons e m => simp only [wf, Bool.and_eq_true, decide_eq_true_eq] at hw ⊢; exact ⟨hba, hw⟩
      · rw [if_neg h1, if_neg h2]
        revert hw
        generalize write m a v = m'
        cases m' with
        | nil => intro _; simp [wf, hm.1]
        | cons e m' => simp only [wf, Bool.and_eq_true, decide_eq_true_eq]; exact fun hw => ⟨hm.1, hw⟩

theorem wf_tail (e : Nat × α) (m : List (Nat × α)) (h : wf (e :: m) = true) : wf m = true := by
  cases m with
  | nil => rfl
  | cons f m => simp only [wf, Bool.and_eq_true] at h; exact h.2

/-- A write keeps the canonical form. -/
theorem wf_write (m : List (Nat × α)) (a : Nat) (v : α) (h : wf m = true) : wf (write m a v) = true := by
  induction m with
  | nil => rfl
  | cons e m ih =>
    obtain ⟨b, u⟩ := e
    simp only [write]
    split
    · next hab => simp only [wf, hab, decide_true, Bool.true_and]; exact h
    · split
      · next hb =>
        subst hb
        cases m with
        | nil => rfl
        | cons f m => simpa only [wf] using h
      · exact wf_cons_write b u m a v (by omega) h (ih (wf_tail _ _ h))

/-- A write below the array's end keeps every index below it. -/
theorem below_write (cap : Nat) (m : List (Nat × α)) (a : Nat) (v : α) (h : below cap m = true) (ha : a < cap) :
    below cap (write m a v) = true := by
  induction m with
  | nil => simp [write, below, ha]
  | cons e m ih =>
    obtain ⟨b, u⟩ := e
    simp only [below, List.all_cons, Bool.and_eq_true, decide_eq_true_eq] at h ih ⊢
    simp only [write]
    split
    · simp [ha, h.1]; simpa using h.2
    · split
      · simp [ha]; simpa using h.2
      · simp only [List.all_cons, Bool.and_eq_true, decide_eq_true_eq]; exact ⟨h.1, ih h.2⟩

/-- Nothing is listed at or above the array's end. -/
theorem read_of_below (cap : Nat) (m : List (Nat × α)) (a : Nat) (h : below cap m = true) (ha : cap ≤ a) :
    read m a = none := by
  induction m with
  | nil => rfl
  | cons e m ih =>
    obtain ⟨b, u⟩ := e
    simp only [below, List.all_cons, Bool.and_eq_true, decide_eq_true_eq] at h ih
    have hb : a ≠ b := by omega
    simp [read, hb, ih h.2]

/-- A larger end holds too. -/
theorem below_mono {cap cap' : Nat} (m : List (Nat × α)) (h : below cap m = true) (hc : cap ≤ cap') :
    below cap' m = true := by
  simp only [below, List.all_eq_true, decide_eq_true_eq] at h ⊢
  exact fun e he => lt_of_lt_of_le (h e he) hc

end Sys2Proof.Machine.Memory
end

