-- ==== Sys2Proof/Laws/Sort.lean ====
section
/-! SUPPORT. The stable sort of 00_scope.md R9: it permutes, it sorts, it is stable. -/

namespace Sys2Proof.Machine

variable {α : Type} (le : α → α → Bool)

theorem insertBefore_perm (a : α) (l : List α) : (insertBefore le a l).Perm (a :: l) := by
  induction l with
  | nil => exact List.Perm.refl _
  | cons b l ih =>
    simp only [insertBefore]
    split
    · exact List.Perm.refl _
    · exact (ih.cons b).trans (List.Perm.swap a b l)

theorem sortStable_perm (l : List α) : (sortStable le l).Perm l := by
  induction l with
  | nil => exact List.Perm.refl _
  | cons a l ih => exact (insertBefore_perm le a _).trans (ih.cons a)

@[simp] theorem sortStable_length (l : List α) : (sortStable le l).length = l.length :=
  (sortStable_perm le l).length_eq

theorem mem_sortStable (a : α) (l : List α) : a ∈ sortStable le l ↔ a ∈ l := (sortStable_perm le l).mem_iff

theorem insertBefore_sorted (total : ∀ a b, le a b = false → le b a = true)
    (trans : ∀ a b c, le a b = true → le b c = true → le a c = true) (a : α) (l : List α)
    (h : l.Pairwise fun x y => le x y = true) : (insertBefore le a l).Pairwise fun x y => le x y = true := by
  induction l with
  | nil => simp [insertBefore]
  | cons b l ih =>
    rw [List.pairwise_cons] at h
    simp only [insertBefore]
    split
    · next hab =>
      rw [List.pairwise_cons]
      refine ⟨fun c hc => ?_, List.pairwise_cons.mpr h⟩
      rcases List.mem_cons.mp hc with rfl | hc
      · exact hab
      · exact trans _ _ _ hab (h.1 c hc)
    · next hab =>
      rw [List.pairwise_cons]
      refine ⟨fun c hc => ?_, ih h.2⟩
      rcases List.mem_cons.mp ((insertBefore_perm le a l).mem_iff.mp hc) with rfl | hc
      · exact total _ _ (by simpa using hab)
      · exact h.1 c hc

/-- The result is ascending, for a total and transitive order. -/
theorem sortStable_sorted (total : ∀ a b, le a b = false → le b a = true)
    (trans : ∀ a b c, le a b = true → le b c = true → le a c = true) (l : List α) :
    (sortStable le l).Pairwise fun x y => le x y = true := by
  induction l with
  | nil => exact List.Pairwise.nil
  | cons a l ih => exact insertBefore_sorted le total trans a _ ih

theorem insertBefore_filter (p : α → Bool) (heq : ∀ a b, p a = true → p b = true → le a b = true) (a : α)
    (l : List α) : (insertBefore le a l).filter p = (a :: l).filter p := by
  induction l with
  | nil => rfl
  | cons b l ih =>
    simp only [insertBefore]
    split
    · rfl
    · next hab =>
      rw [List.filter_cons, ih]
      by_cases ha : p a = true <;> by_cases hb : p b = true
      · exact absurd (heq a b ha hb) hab
      · simp [ha, hb]
      · simp [ha, hb]
      · simp [ha, hb]

/-- Stability: among entries that are equal for the order, the order they came in is kept. -/
theorem sortStable_stable (p : α → Bool) (heq : ∀ a b, p a = true → p b = true → le a b = true) (l : List α) :
    (sortStable le l).filter p = l.filter p := by
  induction l with
  | nil => rfl
  | cons a l ih => rw [sortStable, insertBefore_filter le p heq, List.filter_cons, List.filter_cons, ih]

theorem Pair.le_total (a b : Pair) (h : a.le b = false) : b.le a = true := by
  simp only [Pair.le, Bool.or_eq_false_iff, Bool.and_eq_false_iff, decide_eq_false_iff_not, Bool.or_eq_true,
    Bool.and_eq_true, decide_eq_true_eq] at h ⊢
  omega

theorem Pair.le_trans (a b c : Pair) (h₁ : a.le b = true) (h₂ : b.le c = true) : a.le c = true := by
  simp only [Pair.le, Bool.or_eq_true, Bool.and_eq_true, decide_eq_true_eq] at h₁ h₂ ⊢
  omega

theorem Triple.le_total (a b : Triple) (h : a.le b = false) : b.le a = true := by
  simp only [Triple.le, decide_eq_false_iff_not, decide_eq_true_eq] at h ⊢
  omega

theorem Triple.le_trans (a b c : Triple) (h₁ : a.le b = true) (h₂ : b.le c = true) : a.le c = true := by
  simp only [Triple.le, decide_eq_true_eq] at h₁ h₂ ⊢
  omega

theorem sortedPairs_sorted (l : List Pair) : (sortStable Pair.le l).Pairwise fun a b => a.le b = true :=
  sortStable_sorted _ Pair.le_total Pair.le_trans l

theorem sortedTriples_sorted (l : List Triple) :
    (sortStable Triple.le l).Pairwise fun a b => a.code.toNat ≤ b.code.toNat :=
  (sortStable_sorted _ Triple.le_total Triple.le_trans l).imp fun h => by
    simpa only [Triple.le, decide_eq_true_eq] using h

end Sys2Proof.Machine
end

