-- ==== Sys2Proof/Laws/Partition.lean ====
section
/-! SUPPORT. What Partition does (41_build.md R136 to R142), said once: which entries it may write, the tree it leaves when
the codes are distinct, and that it fails with EQUAL when they are not. -/

namespace Sys2Proof.Machine

/-! ### Levels of a code (00_scope.md R8) -/

theorem lvl_eq_testBit (c : Word) (p : Nat) : lvl c p = c.toNat.testBit (31 - p) := by
  simp [lvl, BitVec.testBit_toNat]

/-- Of two codes that agree above level `p`, the larger has level `p` set if the smaller has. -/
theorem lvl_mono {x y : Word} {p : Nat} (hp : p ≤ 31) (hagree : ∀ q < p, lvl x q = lvl y q)
    (hle : x.toNat ≤ y.toNat) (hx : lvl x p = true) : lvl y p = true := by
  by_contra hy
  rw [Bool.not_eq_true] at hy
  rw [lvl_eq_testBit] at hx hy
  have hlt : y.toNat < x.toNat := by
    refine Nat.lt_of_testBit (31 - p) hy hx fun j hj => ?_
    by_cases hj32 : j < 32
    · have := hagree (31 - j) (by omega)
      rw [lvl_eq_testBit, lvl_eq_testBit] at this
      have h31 : 31 - (31 - j) = j := by omega
      rw [h31] at this
      exact this.symm
    · rw [Nat.testBit_lt_two_pow (lt_of_lt_of_le y.isLt (Nat.pow_le_pow_right (by omega) (by omega))),
        Nat.testBit_lt_two_pow (lt_of_lt_of_le x.isLt (Nat.pow_le_pow_right (by omega) (by omega)))]
  omega

/-- Codes that agree on all 32 levels are equal. -/
theorem eq_of_lvl_eq {x y : Word} (h : ∀ q < 32, lvl x q = lvl y q) : x = y := by
  refine BitVec.eq_of_getLsbD_eq fun i hi => ?_
  have := h (31 - i) (by omega)
  simp only [lvl] at this
  have h31 : 31 - (31 - i) = i := by omega
  rwa [h31] at this

/-! ### A sub-range and its two parts (R136) -/

/-- The entries of a sub-range at level `32 - k` agree on the levels above it. -/
def Agree (k : Nat) (r : List Triple) : Prop :=
  ∀ x ∈ r, ∀ y ∈ r, ∀ q < 32 - k, lvl x.code q = lvl y.code q

/-- A sub-range is sorted by code (R135). -/
def CodeSorted (r : List Triple) : Prop := r.Pairwise fun a b => a.code.toNat ≤ b.code.toNat

/-- The stored codes are pairwise distinct. -/
def DistinctCodes (r : List Triple) : Prop := (r.map Triple.code).Nodup

theorem zeros_append_ones (r : List Triple) (p : Nat) : zeros r p ++ ones r p = r :=
  List.takeWhile_append_dropWhile

theorem length_zeros_add_ones (r : List Triple) (p : Nat) : (zeros r p).length + (ones r p).length = r.length := by
  rw [← List.length_append, zeros_append_ones]

theorem zeros_sublist (r : List Triple) (p : Nat) : (zeros r p).Sublist r := List.takeWhile_sublist _

theorem ones_sublist (r : List Triple) (p : Nat) : (ones r p).Sublist r := List.dropWhile_sublist _

theorem lvl_of_mem_zeros {r : List Triple} {p : Nat} {x : Triple} (h : x ∈ zeros r p) : lvl x.code p = false := by
  have := List.mem_takeWhile_imp h
  simpa using this

/-- In a sorted sub-range whose entries agree above, "every entry of Z precedes every entry of O": O holds entries with
the bit set only. -/
theorem lvl_of_mem_ones {r : List Triple} {k : Nat} (hk : k < 32) (hs : CodeSorted r) (ha : Agree (k + 1) r)
    {x : Triple} (h : x ∈ ones r (31 - k)) : lvl x.code (31 - k) = true := by
  have hsub := ones_sublist r (31 - k)
  cases ho : ones r (31 - k) with
  | nil => rw [ho] at h; simp at h
  | cons y l =>
    have hy : lvl y.code (31 - k) = true := by
      have := List.head?_dropWhile_not (fun x : Triple => !lvl x.code (31 - k)) r
      rw [show r.dropWhile (fun x => !lvl x.code (31 - k)) = y :: l from ho] at this
      simpa using this
    rw [ho] at h hsub
    rcases List.mem_cons.mp h with rfl | hx
    · exact hy
    · have hle := (List.pairwise_cons.mp (hs.sublist hsub)).1 x hx
      refine lvl_mono (by omega) (fun q hq => ?_) hle hy
      exact ha y (hsub.subset (by simp)) x (hsub.subset h) q (by omega)

theorem Agree.of_sublist {k : Nat} {r r' : List Triple} (ha : Agree k r) (hr : r'.Sublist r) : Agree k r' :=
  fun x hx y hy => ha x (hr.subset hx) y (hr.subset hy)

theorem Agree.extend {k : Nat} (hk : k < 32) {r : List Triple} (ha : Agree (k + 1) r)
    (hl : ∀ x ∈ r, ∀ y ∈ r, lvl x.code (31 - k) = lvl y.code (31 - k)) : Agree k r := by
  intro x hx y hy q hq
  by_cases h : q = 31 - k
  · subst h; exact hl x hx y hy
  · exact ha x hx y hy q (by omega)

theorem agree_zeros {k : Nat} (hk : k < 32) {r : List Triple} (ha : Agree (k + 1) r) :
    Agree k (zeros r (31 - k)) :=
  (ha.of_sublist (zeros_sublist r _)).extend hk fun x hx y hy => by rw [lvl_of_mem_zeros hx, lvl_of_mem_zeros hy]

theorem agree_ones {k : Nat} (hk : k < 32) {r : List Triple} (hs : CodeSorted r) (ha : Agree (k + 1) r) :
    Agree k (ones r (31 - k)) :=
  (ha.of_sublist (ones_sublist r _)).extend hk fun x hx y hy => by
    rw [lvl_of_mem_ones hk hs ha hx, lvl_of_mem_ones hk hs ha hy]

/-- At a degenerate level all entries agree (R138). -/
theorem agree_degenerate {k : Nat} (hk : k < 32) {r : List Triple} (hs : CodeSorted r) (ha : Agree (k + 1) r)
    (hd : ((zeros r (31 - k)).isEmpty || (ones r (31 - k)).isEmpty) = true) : Agree k r := by
  have happ := zeros_append_ones r (31 - k)
  rw [Bool.or_eq_true, List.isEmpty_iff, List.isEmpty_iff] at hd
  rcases hd with hd | hd
  · have := agree_ones hk hs ha
    rw [hd, List.nil_append] at happ
    rwa [happ] at this
  · have := agree_zeros hk ha
    rw [hd, List.append_nil] at happ
    rwa [happ] at this

/-- Entries that agree on all levels have equal codes, so two of them are not distinct. -/
theorem not_distinct_of_agree {r : List Triple} (h2 : 2 ≤ r.length) (ha : Agree 0 r) : ¬ DistinctCodes r := by
  match r, h2 with
  | x :: y :: l, _ =>
    intro hd
    have hxy : x.code = y.code := eq_of_lvl_eq fun q hq => ha x (by simp) y (by simp) q (by omega)
    simp [DistinctCodes, hxy] at hd

/-- Distinct codes in both parts are distinct in the whole: the parts differ at the level. -/
theorem distinct_of_parts {r : List Triple} {k : Nat} (hk : k < 32) (hs : CodeSorted r) (ha : Agree (k + 1) r)
    (hz : DistinctCodes (zeros r (31 - k))) (ho : DistinctCodes (ones r (31 - k))) : DistinctCodes r := by
  have happ := zeros_append_ones r (31 - k)
  rw [DistinctCodes, ← happ, List.map_append, List.nodup_append]
  refine ⟨hz, ho, ?_⟩
  intro a hza b hob hab
  obtain ⟨x, hx, rfl⟩ := List.mem_map.mp hza
  obtain ⟨y, hy, rfl⟩ := List.mem_map.mp hob
  have h0 := lvl_of_mem_zeros hx
  have h1 := lvl_of_mem_ones hk hs ha hy
  rw [hab, h1] at h0
  exact Bool.noConfusion h0

/-! ### Which entries are written -/

/-- From `m` to `m'`, a sub-range of `len` entries has been partitioned: node numbers only go up, by less than `len`; below
NEXT_NODE only the entries outside `keep` may have changed; at and above the new NEXT_NODE nothing has; and the array stays
canonical and inside its bounds. -/
structure Grown (keep : Nat → Prop) (m m' : TreeMem) (len : Nat) : Prop where
  le : m.next.toNat ≤ m'.next.toNat
  bound : m'.next.toNat + 1 ≤ m.next.toNat + len
  frame : ∀ i, i < m.next.toNat → keep i → Memory.read m'.nodes i = Memory.read m.nodes i
  above : ∀ i, m'.next.toNat ≤ i → Memory.read m'.nodes i = Memory.read m.nodes i
  wf : Memory.wf m.nodes = true → Memory.wf m'.nodes = true
  below : ∀ cap, m'.next.toNat ≤ cap → Memory.below cap m.nodes = true → Memory.below cap m'.nodes = true

theorem alloc_next (m : TreeMem) (h : m.next.toNat < 65535) : m.alloc.next.toNat = m.next.toNat + 1 := by
  have h1 : (1 : Half).toNat = 1 := rfl
  simp only [TreeMem.alloc, BitVec.toNat_add, h1]
  omega

theorem alloc_read (m : TreeMem) (i : Nat) :
    Memory.read m.alloc.nodes i = if i = m.next.toNat then some ⟨0, 0, 0, 0⟩ else Memory.read m.nodes i :=
  Memory.read_write _ _ _ _

@[simp] theorem modify_next (m : TreeMem) (n : Half) (f : Node → Node) : (m.modify n f).next = m.next := rfl

theorem modify_read (m : TreeMem) (n : Half) (f : Node → Node) (i : Nat) :
    Memory.read (m.modify n f).nodes i =
      if i = n.toNat then some (f (nodeAt m.nodes n.toNat)) else Memory.read m.nodes i :=
  Memory.read_write _ _ _ _

/-- Changing one node below NEXT_NODE. -/
theorem Grown.modify {keep : Nat → Prop} {m m' : TreeMem} {len : Nat} (g : Grown keep m m' len) (n : Half)
    (f : Node → Node) (hn : n.toNat < m.next.toNat) (hk : ∀ i, keep i → i ≠ n.toNat) :
    Grown keep m (m'.modify n f) len where
  le := g.le
  bound := g.bound
  frame i hi hki := by rw [modify_read, if_neg (hk i hki)]; exact g.frame i hi hki
  above i hi := by
    rw [modify_next] at hi
    have := g.le
    rw [modify_read, if_neg (by omega)]
    exact g.above i hi
  wf h := Memory.wf_write _ _ _ (g.wf h)
  below cap hc h := by
    have := g.le
    rw [modify_next] at hc
    exact Memory.below_write cap _ _ _ (g.below cap hc h) (by omega)

theorem Grown.refl (keep : Nat → Prop) (m : TreeMem) {len : Nat} (h : 1 ≤ len) : Grown keep m m len where
  le := le_refl _
  bound := by omega
  frame _ _ _ := rfl
  above _ _ := rfl
  wf h := h
  below _ _ h := h

theorem Grown.weaken {keep keep' : Nat → Prop} {m m' : TreeMem} {len : Nat} (g : Grown keep m m' len)
    (h : ∀ i, keep' i → keep i) : Grown keep' m m' len :=
  { g with frame := fun i hi hk => g.frame i hi (h i hk) }

/-- One side of a node: what the recursion writes, and the node itself. -/
theorem fillSide_grown (side : Side) (n : Half) (r : List Triple) (recurse : TreeMem → Built × TreeMem) (m : TreeMem)
    (hr : r ≠ []) (hn : n.toNat < m.next.toNat)
    (hrec : 2 ≤ r.length → Grown (fun _ => True) m (recurse m).2 r.length ∧
      ∀ e, (recurse m).1 = .failed e → e = .equal) :
    Grown (fun i => i ≠ n.toNat) m (fillSide side n r recurse m).2 r.length ∧
      ∀ e, (fillSide side n r recurse m).1 = .failed e → e = .equal := by
  match r, hr with
  | [x], _ =>
    simp only [fillSide]
    exact ⟨(Grown.refl _ m (by simp)).modify n _ hn fun _ h => h, by simp⟩
  | x :: y :: l, _ =>
    obtain ⟨g, he⟩ := hrec (by simp)
    simp only [fillSide]
    cases hm : recurse m with
    | mk b m' =>
      rw [hm] at g he
      cases b with
      | node c =>
        dsimp only
        exact ⟨(g.weaken fun _ _ => trivial).modify n _ hn fun _ h => h, by simp⟩
      | failed e => exact ⟨g.weaken fun _ _ => trivial, he⟩

/-- What Partition may write, whatever the codes; its only error is EQUAL (R138: "EMPTY is never raised"). -/
theorem partition_grown (k : Nat) (r : List Triple) (m : TreeMem) (h2 : 2 ≤ r.length)
    (hb : m.next.toNat + r.length ≤ 65536) :
    Grown (fun _ => True) m (partition k r m).2 r.length ∧
      ∀ e, (partition k r m).1 = .failed e → e = .equal := by
  induction k generalizing r m with
  | zero => exact ⟨Grown.refl _ m (by omega), by simp [partition]⟩
  | succ k ih =>
    rw [partition]
    have hlen := length_zeros_add_ones r (31 - k)
    split
    · rw [if_neg (by omega)]
      split
      · exact ⟨Grown.refl _ m (by omega), by simp⟩
      · exact ih r m h2 hb
    · next hd =>
      simp only [Bool.or_eq_true, List.isEmpty_iff, not_or] at hd
      have hz : 0 < (zeros r (31 - k)).length := List.length_pos_iff.mpr hd.1
      have ho : 0 < (ones r (31 - k)).length := List.length_pos_iff.mpr hd.2
      have hna := alloc_next m (by omega)
      obtain ⟨gl, el⟩ := fillSide_grown .left m.next _ (partition k (zeros r (31 - k))) m.alloc hd.1 (by omega)
        fun h => ih _ _ h (by omega)
      have glb := gl.bound
      have gll := gl.le
      simp only [normalSplit]
      cases hm : fillSide .left m.next (zeros r (31 - k)) (partition k (zeros r (31 - k))) m.alloc with
      | mk b m1 =>
        rw [hm] at gl el glb gll
        dsimp only at gl el glb gll
        have frame1 : ∀ i, i < m.next.toNat → Memory.read m1.nodes i = Memory.read m.nodes i := fun i hi => by
          rw [gl.frame i (by omega) (by omega), alloc_read, if_neg (by omega)]
        have above1 : ∀ i, m1.next.toNat ≤ i → Memory.read m1.nodes i = Memory.read m.nodes i := fun i hi => by
          rw [gl.above i hi, alloc_read, if_neg (by omega)]
        have wf1 : Memory.wf m.nodes = true → Memory.wf m1.nodes = true := fun h => gl.wf (Memory.wf_write _ _ _ h)
        have below1 : ∀ cap, m1.next.toNat ≤ cap → Memory.below cap m.nodes = true → Memory.below cap m1.nodes = true :=
          fun cap hc h => gl.below cap hc (Memory.below_write cap _ _ _ h (by omega))
        cases b with
        | failed e =>
          dsimp only
          exact ⟨⟨by omega, by omega, fun i hi _ => frame1 i hi, above1, wf1, below1⟩, el⟩
        | node c =>
          obtain ⟨gr, er⟩ := fillSide_grown .right m.next _ (partition k (ones r (31 - k))) m1 hd.2 (by omega)
            fun h => ih _ _ h (by omega)
          have grb := gr.bound
          have grl := gr.le
          dsimp only
          refine ⟨⟨by omega, by omega, fun i hi _ => ?_, fun i hi => ?_, fun h => ?_,
            fun cap hc h => ?_⟩, er⟩
          · rw [gr.frame i (by omega) (by omega)]; exact frame1 i hi
          · rw [gr.above i hi]; exact above1 i (by omega)
          · exact gr.wf (wf1 h)
          · exact gr.below cap hc (below1 cap (by omega) h)

/-! ### The tree -/

/-- One slot of a node whose side is `r`, the nodes of that side being numbered from `lo` on and ending before `hi`: the
entry itself as a leaf, or the node `lo` at which `tree` says the side's tree stands (R137). -/
def SlotFor (tree : List Triple → Nat → Nat → Prop) (r : List Triple) (idx val : Half) (lo hi : Nat) : Prop :=
  (∃ x, r = [x] ∧ idx = sent ∧ val = x.symbol ∧ hi = lo) ∨
    (2 ≤ r.length ∧ idx.toNat = lo ∧ idx ≠ sent ∧ val = 0 ∧ tree r lo hi)

/-- `nodes` holds, in the entries `lo` to `hi - 1`, the tree of the sub-range `r` at level `32 - k` (R136 to R138, R142:
LEFT numbered before RIGHT). -/
def TreeFor (nodes : List (Nat × Node)) : Nat → List Triple → Nat → Nat → Prop
  | 0, _, _, _ => False
  | k + 1, r, lo, hi =>
    if (zeros r (31 - k)).isEmpty || (ones r (31 - k)).isEmpty then TreeFor nodes k r lo hi
    else ∃ d mid, Memory.read nodes lo = some d ∧
      SlotFor (TreeFor nodes k) (zeros r (31 - k)) d.lidx d.lval (lo + 1) mid ∧
      SlotFor (TreeFor nodes k) (ones r (31 - k)) d.ridx d.rval mid hi

theorem SlotFor.hi_eq {tree : List Triple → Nat → Nat → Prop} {r : List Triple} {idx val : Half} {lo hi : Nat}
    (h : SlotFor tree r idx val lo hi) (ht : ∀ r lo hi, 2 ≤ r.length → tree r lo hi → hi + 1 = lo + r.length) :
    hi + 1 = lo + r.length := by
  rcases h with ⟨x, rfl, -, -, rfl⟩ | ⟨h2, -, -, -, h⟩
  · rfl
  · exact ht _ _ _ h2 h

/-- A tree for `n` entries has `n - 1` nodes (R144). -/
theorem TreeFor.hi_eq {nodes : List (Nat × Node)} {k : Nat} {r : List Triple} {lo hi : Nat}
    (h : TreeFor nodes k r lo hi) : hi + 1 = lo + r.length := by
  induction k generalizing r lo hi with
  | zero => exact h.elim
  | succ k ih =>
    rw [TreeFor] at h
    split at h
    · exact ih h
    · obtain ⟨d, mid, -, hl, hr⟩ := h
      have h1 := hl.hi_eq fun _ _ _ _ h => ih h
      have h2 := hr.hi_eq fun _ _ _ _ h => ih h
      have := length_zeros_add_ones r (31 - k)
      omega

theorem SlotFor.imp {tree tree' : List Triple → Nat → Nat → Prop} {r : List Triple} {idx val : Half} {lo hi : Nat}
    (h : SlotFor tree r idx val lo hi) (ht : 2 ≤ r.length → tree r lo hi → tree' r lo hi) :
    SlotFor tree' r idx val lo hi := by
  rcases h with h | ⟨h2, h3, h4, h5, h⟩
  · exact .inl h
  · exact .inr ⟨h2, h3, h4, h5, ht h2 h⟩

/-- A tree is read from its own entries only. -/
theorem TreeFor.congr {nodes nodes' : List (Nat × Node)} {k : Nat} {r : List Triple} {lo hi : Nat}
    (h : TreeFor nodes k r lo hi) (h2 : 2 ≤ r.length)
    (hn : ∀ i, lo ≤ i → i < hi → Memory.read nodes' i = Memory.read nodes i) : TreeFor nodes' k r lo hi := by
  induction k generalizing r lo hi with
  | zero => exact h.elim
  | succ k ih =>
    have hhi := h.hi_eq
    rw [TreeFor] at h ⊢
    split
    · next hd => rw [if_pos hd] at h; exact ih h h2 hn
    · next hd =>
      rw [if_neg hd] at h
      simp only [Bool.or_eq_true, List.isEmpty_iff, not_or] at hd
      have hz : 0 < (zeros r (31 - k)).length := List.length_pos_iff.mpr hd.1
      have ho : 0 < (ones r (31 - k)).length := List.length_pos_iff.mpr hd.2
      have hlen := length_zeros_add_ones r (31 - k)
      obtain ⟨d, mid, hd', hl, hr⟩ := h
      have h1 := hl.hi_eq fun _ _ _ _ h => h.hi_eq
      have h3 := hr.hi_eq fun _ _ _ _ h => h.hi_eq
      refine ⟨d, mid, by rw [hn lo (by omega) (by omega)]; exact hd', hl.imp fun h2 h => ?_, hr.imp fun h2 h => ?_⟩
      · exact ih h h2 fun i hi hi' => hn i (by omega) (by omega)
      · exact ih h h2 fun i hi hi' => hn i (by omega) (by omega)

theorem nodeAt_of_read {nodes : List (Nat × Node)} {i : Nat} {d : Node} (h : Memory.read nodes i = some d) :
    nodeAt nodes i = d := by simp [nodeAt, h]

theorem DistinctCodes.sublist {r r' : List Triple} (h : DistinctCodes r) (hr : r'.Sublist r) : DistinctCodes r' :=
  List.Nodup.sublist (hr.map _) h

/-- A completed side answers its own node. -/
theorem fillSide_node (side : Side) (n : Half) (r : List Triple) (recurse : TreeMem → Built × TreeMem) (m : TreeMem)
    (c : Half) (h : (fillSide side n r recurse m).1 = .node c) : c = n := by
  unfold fillSide at h
  split at h
  · simpa using h.symm
  · split at h
    · simpa using h.symm
    · simp at h

/-- A side of two or more entries fails where its recursion fails. -/
theorem fillSide_fails (side : Side) (n : Half) (r : List Triple) (recurse : TreeMem → Built × TreeMem) (m : TreeMem)
    (h2 : 2 ≤ r.length) {e : ErrCode} (h : (recurse m).1 = .failed e) :
    fillSide side n r recurse m = (.failed e, (recurse m).2) := by
  match r, h2 with
  | x :: y :: l, _ =>
    simp only [fillSide]
    cases hm : recurse m with
    | mk b m' => rw [hm] at h; dsimp only at h; subst h; rfl

theorem length_of_not_distinct {r : List Triple} (h : ¬ DistinctCodes r) : 2 ≤ r.length := by
  match r with
  | [] => simp [DistinctCodes] at h
  | [x] => simp [DistinctCodes] at h
  | x :: y :: l => simp

/-- With distinct codes Partition succeeds: it returns the first free node, and the tree stands from there on. -/
theorem partition_tree (k : Nat) (hk : k ≤ 32) (r : List Triple) (m : TreeMem) (h2 : 2 ≤ r.length)
    (hb : m.next.toNat + r.length ≤ 65536) (hs : CodeSorted r) (ha : Agree k r) (hd : DistinctCodes r) :
    (partition k r m).1 = .node m.next ∧
      TreeFor (partition k r m).2.nodes k r m.next.toNat (partition k r m).2.next.toNat := by
  induction k generalizing r m with
  | zero => exact absurd hd (not_distinct_of_agree h2 ha)
  | succ k ih =>
    have hlen := length_zeros_add_ones r (31 - k)
    rw [partition, TreeFor]
    split
    · next hdeg =>
      have ha' := agree_degenerate (by omega) hs ha hdeg
      rw [if_neg (by omega)]
      split
      · next h31 =>
        have : k = 0 := by omega
        subst this
        exact absurd hd (not_distinct_of_agree h2 ha')
      · exact ih (by omega) r m h2 hb hs ha' hd
    · next hdeg =>
      simp only [Bool.or_eq_true, List.isEmpty_iff, not_or] at hdeg
      have hz : 0 < (zeros r (31 - k)).length := List.length_pos_iff.mpr hdeg.1
      have ho : 0 < (ones r (31 - k)).length := List.length_pos_iff.mpr hdeg.2
      have hna := alloc_next m (by omega)
      -- the LEFT side
      obtain ⟨c, m1, hm1, g1, d1, hd1, hrv, hl1⟩ : ∃ c m1,
          fillSide .left m.next (zeros r (31 - k)) (partition k (zeros r (31 - k))) m.alloc = (.node c, m1) ∧
          Grown (fun i => i ≠ m.next.toNat) m.alloc m1 (zeros r (31 - k)).length ∧
          ∃ d1, Memory.read m1.nodes m.next.toNat = some d1 ∧ d1.rval = 0 ∧
            SlotFor (TreeFor m1.nodes k) (zeros r (31 - k)) d1.lidx d1.lval (m.next.toNat + 1) m1.next.toNat := by
        have g := (fillSide_grown .left m.next _ (partition k (zeros r (31 - k))) m.alloc hdeg.1 (by omega)
          fun h => partition_grown k _ _ h (by omega)).1
        match hzr : zeros r (31 - k), hdeg.1 with
        | [x], _ =>
          rw [hzr] at g
          refine ⟨_, _, rfl, g, _, by rw [modify_read, if_pos rfl], ?_, .inl ⟨x, rfl, rfl, rfl, ?_⟩⟩
          · have hr := alloc_read m m.next.toNat
            rw [if_pos rfl] at hr
            simp [setLeaf, nodeAt_of_read hr]
          · rw [modify_next, hna]
        | x :: y :: l, _ =>
          have hzs : CodeSorted (zeros r (31 - k)) := hs.sublist (zeros_sublist r _)
          obtain ⟨hn, ht⟩ := ih (by omega) (zeros r (31 - k)) m.alloc (by rw [hzr]; simp) (by omega) hzs
            (agree_zeros (by omega) ha) (hd.sublist (zeros_sublist r _))
          have gp := (partition_grown k (zeros r (31 - k)) m.alloc (by rw [hzr]; simp) (by omega)).1
          rw [hzr] at g hn ht gp hz hlen
          have hidx : m.alloc.next ≠ sent := fun h => by
            rw [h] at hna; simp only [sent, BitVec.toNat_ofNat] at hna; simp only [List.length_cons] at hlen hz; omega
          cases hp : partition k (x :: y :: l) m.alloc with
          | mk b m' =>
            rw [hp] at hn ht gp
            simp only at hn
            subst hn
            have hf : fillSide .left m.next (x :: y :: l) (partition k (x :: y :: l)) m.alloc =
                (.node m.next, m'.modify m.next fun d => setChild d m.alloc.next .left) := by
              simp only [fillSide, hp]
            rw [hf] at g
            have hr := gp.frame m.next.toNat (by omega) trivial
            rw [alloc_read, if_pos rfl] at hr
            refine ⟨_, _, hf, g, _, by rw [modify_read, if_pos rfl], ?_, .inr ⟨by simp, ?_, hidx, ?_, ?_⟩⟩
            · simp [setChild, nodeAt_of_read hr]
            · simpa [setChild] using hna
            · simp [setChild, nodeAt_of_read hr]
            · rw [modify_next, ← hna]
              refine ht.congr (by simp) fun i hi _ => ?_
              rw [modify_read, if_neg (by omega)]
      have g1b := g1.bound
      have g1l := g1.le
      -- the RIGHT side
      obtain ⟨c2, m2, hm2, g2, d2, hd2, hdl, hdv, hl2⟩ : ∃ c2 m2,
          fillSide .right m.next (ones r (31 - k)) (partition k (ones r (31 - k))) m1 = (.node c2, m2) ∧
          Grown (fun i => i ≠ m.next.toNat) m1 m2 (ones r (31 - k)).length ∧
          ∃ d2, Memory.read m2.nodes m.next.toNat = some d2 ∧ d2.lidx = d1.lidx ∧ d2.lval = d1.lval ∧
            SlotFor (TreeFor m2.nodes k) (ones r (31 - k)) d2.ridx d2.rval m1.next.toNat m2.next.toNat := by
        have g := (fillSide_grown .right m.next _ (partition k (ones r (31 - k))) m1 hdeg.2 (by omega)
          fun h => partition_grown k _ _ h (by omega)).1
        match hor : ones r (31 - k), hdeg.2 with
        | [x], _ =>
          rw [hor] at g
          refine ⟨_, _, rfl, g, _, by rw [modify_read, if_pos rfl], ?_, ?_, .inl ⟨x, rfl, rfl, rfl, ?_⟩⟩
          · simp [setLeaf, nodeAt_of_read hd1]
          · simp [setLeaf, nodeAt_of_read hd1]
          · rw [modify_next]
        | x :: y :: l, _ =>
          have hos : CodeSorted (ones r (31 - k)) := hs.sublist (ones_sublist r _)
          obtain ⟨hn, ht⟩ := ih (by omega) (ones r (31 - k)) m1 (by rw [hor]; simp) (by omega) hos
            (agree_ones (by omega) hs ha) (hd.sublist (ones_sublist r _))
          have gp := (partition_grown k (ones r (31 - k)) m1 (by rw [hor]; simp) (by omega)).1
          rw [hor] at g hn ht gp ho hlen
          have hidx : m1.next ≠ sent := fun h => by
            rw [h] at g1b; simp only [sent, BitVec.toNat_ofNat] at g1b; simp only [List.length_cons] at hlen ho; omega
          cases hp : partition k (x :: y :: l) m1 with
          | mk b m' =>
            rw [hp] at hn ht gp
            simp only at hn
            subst hn
            have hf : fillSide .right m.next (x :: y :: l) (partition k (x :: y :: l)) m1 =
                (.node m.next, m'.modify m.next fun d => setChild d m1.next .right) := by
              simp only [fillSide, hp]
            rw [hf] at g
            have hr := gp.frame m.next.toNat (by omega) trivial
            rw [hd1] at hr
            refine ⟨_, _, hf, g, _, by rw [modify_read, if_pos rfl], ?_, ?_,
              .inr ⟨by simp, ?_, hidx, ?_, ?_⟩⟩
            · simp [setChild, nodeAt_of_read hr]
            · simp [setChild, nodeAt_of_read hr]
            · rfl
            · simp [setChild, nodeAt_of_read hr, hrv]
            · rw [modify_next]
              refine ht.congr (by simp) fun i hi _ => ?_
              rw [modify_read, if_neg (by omega)]
      have hns : normalSplit (fillSide .left m.next (zeros r (31 - k)) (partition k (zeros r (31 - k))))
          (fillSide .right m.next (ones r (31 - k)) (partition k (ones r (31 - k)))) m = (.node c2, m2) := by
        simp only [normalSplit, hm1, hm2]
      have hc2 : c2 = m.next := by
        have := fillSide_node .right m.next (ones r (31 - k)) (partition k (ones r (31 - k))) m1 c2
        rw [hm2] at this
        exact this rfl
      rw [hns, hc2]
      refine ⟨rfl, d2, m1.next.toNat, hd2, ?_, hl2⟩
      rw [hdl, hdv]
      refine hl1.imp fun h2 h => h.congr h2 fun i hi hi' => g2.frame i (by omega) (by omega)

/-- Two equal codes never separate: Partition fails with EQUAL (R138, R139). -/
theorem partition_fails (k : Nat) (hk : k ≤ 32) (r : List Triple) (m : TreeMem) (h2 : 2 ≤ r.length)
    (hb : m.next.toNat + r.length ≤ 65536) (hs : CodeSorted r) (ha : Agree k r) (hd : ¬ DistinctCodes r) :
    (partition k r m).1 = .failed .equal := by
  induction k generalizing r m with
  | zero => rfl
  | succ k ih =>
    have hlen := length_zeros_add_ones r (31 - k)
    rw [partition]
    split
    · next hdeg =>
      rw [if_neg (by omega)]
      split
      · rfl
      · exact ih (by omega) r m h2 hb hs (agree_degenerate (by omega) hs ha hdeg) hd
    · next hdeg =>
      simp only [Bool.or_eq_true, List.isEmpty_iff, not_or] at hdeg
      have hz : 0 < (zeros r (31 - k)).length := List.length_pos_iff.mpr hdeg.1
      have ho : 0 < (ones r (31 - k)).length := List.length_pos_iff.mpr hdeg.2
      have hna := alloc_next m (by omega)
      have hl := fillSide_grown .left m.next _ (partition k (zeros r (31 - k))) m.alloc hdeg.1 (by omega)
        fun h => partition_grown k _ _ h (by omega)
      simp only [normalSplit]
      cases hm : fillSide .left m.next (zeros r (31 - k)) (partition k (zeros r (31 - k))) m.alloc with
      | mk b m1 =>
        rw [hm] at hl
        cases b with
        | failed e => rw [hl.2 e rfl]
        | node c =>
          have g1b := hl.1.bound
          dsimp only at g1b ⊢
          have hzd : DistinctCodes (zeros r (31 - k)) := by
            by_contra hzd
            have hz2 := length_of_not_distinct hzd
            have := ih (by omega) _ m.alloc hz2 (by omega) (hs.sublist (zeros_sublist r _)) (agree_zeros (by omega) ha) hzd
            rw [fillSide_fails .left m.next _ _ m.alloc hz2 this] at hm
            simp at hm
          have hod : ¬ DistinctCodes (ones r (31 - k)) := fun h =>
            hd (distinct_of_parts (by omega) hs ha hzd h)
          have ho2 := length_of_not_distinct hod
          rw [fillSide_fails .right m.next _ _ m1 ho2
            (ih (by omega) _ m1 ho2 (by omega) (hs.sublist (ones_sublist r _)) (agree_ones (by omega) hs ha) hod)]

/-! ### What Partition does not depend on -/

theorem fillSide_indep (side : Side) (n : Half) (r : List Triple) (recurse : TreeMem → Built × TreeMem)
    (hrec : ∀ m m' : TreeMem, m.next = m'.next →
      (recurse m).1 = (recurse m').1 ∧ (recurse m).2.next = (recurse m').2.next)
    (m m' : TreeMem) (h : m.next = m'.next) :
    (fillSide side n r recurse m).1 = (fillSide side n r recurse m').1 ∧
      (fillSide side n r recurse m).2.next = (fillSide side n r recurse m').2.next := by
  unfold fillSide
  split
  · exact ⟨rfl, h⟩
  · have := hrec m m' h
    cases h1 : recurse m with
    | mk b x =>
      cases h2 : recurse m' with
      | mk b' x' =>
        rw [h1, h2] at this
        obtain ⟨rfl, h3⟩ := this
        cases b <;> exact ⟨rfl, h3⟩

/-- What Partition answers and how many nodes it allocates do not depend on what the node array held before. -/
theorem partition_indep (k : Nat) (r : List Triple) (m m' : TreeMem) (h : m.next = m'.next) :
    (partition k r m).1 = (partition k r m').1 ∧ (partition k r m).2.next = (partition k r m').2.next := by
  induction k generalizing r m m' with
  | zero => exact ⟨rfl, h⟩
  | succ k ih =>
    rw [partition, partition]
    split
    · split
      · exact ⟨rfl, h⟩
      · split
        · exact ⟨rfl, h⟩
        · exact ih r m m' h
    · rw [← h]
      have a := fillSide_indep .left m.next (zeros r (31 - k)) (partition k (zeros r (31 - k)))
        (fun _ _ h => ih _ _ _ h) m.alloc m'.alloc (by simp [TreeMem.alloc, h])
      unfold normalSplit
      cases h1 : fillSide .left m.next (zeros r (31 - k)) (partition k (zeros r (31 - k))) m.alloc with
      | mk b x =>
        cases h2 : fillSide .left m.next (zeros r (31 - k)) (partition k (zeros r (31 - k))) m'.alloc with
        | mk b' x' =>
          rw [h1, h2] at a
          obtain ⟨rfl, h3⟩ := a
          cases b with
          | failed e => exact ⟨rfl, h3⟩
          | node c => exact fillSide_indep .right _ _ _ (fun _ _ h => ih _ _ _ h) x x' h3

theorem SlotFor.unique {tree tree' : List Triple → Nat → Nat → Prop} {r : List Triple} {idx val idx' val' : Half}
    {lo hi hi' : Nat} (h : SlotFor tree r idx val lo hi) (h' : SlotFor tree' r idx' val' lo hi') :
    idx = idx' ∧ val = val' := by
  rcases h with ⟨x, rfl, rfl, rfl, rfl⟩ | ⟨h2, h3, h4, h5, h⟩ <;>
    rcases h' with ⟨y, hy, rfl, rfl, rfl⟩ | ⟨h2', h3', h4', h5', h'⟩
  · cases hy; exact ⟨rfl, rfl⟩
  · simp at h2'
  · rw [hy] at h2; simp at h2
  · exact ⟨BitVec.eq_of_toNat_eq (by omega), by rw [h5, h5']⟩

/-- The tree of a sub-range is unique: its entries are the same in any two node arrays that hold it. -/
theorem TreeFor.unique {nodes nodes' : List (Nat × Node)} {k : Nat} {r : List Triple} {lo hi hi' : Nat}
    (h : TreeFor nodes k r lo hi) (h' : TreeFor nodes' k r lo hi') :
    ∀ i, lo ≤ i → i < hi → Memory.read nodes' i = Memory.read nodes i := by
  induction k generalizing r lo hi hi' with
  | zero => exact h.elim
  | succ k ih =>
    have := h.hi_eq
    have := h'.hi_eq
    rw [TreeFor] at h h'
    split at h
    · next hd => rw [if_pos hd] at h'; exact ih h h'
    · next hd =>
      rw [if_neg hd] at h'
      obtain ⟨d, mid, hd1, hl, hr⟩ := h
      obtain ⟨d', mid', hd1', hl', hr'⟩ := h'
      have e1 := hl.hi_eq fun _ _ _ _ h => h.hi_eq
      have e2 := hl'.hi_eq fun _ _ _ _ h => h.hi_eq
      have : mid = mid' := by omega
      subst this
      obtain ⟨a1, a2⟩ := hl.unique hl'
      obtain ⟨a3, a4⟩ := hr.unique hr'
      intro i h1 h2
      rcases Nat.lt_or_ge lo i with hi | hi
      · rcases Nat.lt_or_ge i mid with hm | hm
        · rcases hl with ⟨_, _, _, _, hz⟩ | ⟨_, _, _, _, hz⟩
          · omega
          · rcases hl' with ⟨_, _, _, _, hz'⟩ | ⟨_, _, _, _, hz'⟩
            · omega
            · exact ih hz hz' i (by omega) hm
        · rcases hr with ⟨_, _, _, _, hz⟩ | ⟨_, _, _, _, hz⟩
          · omega
          · rcases hr' with ⟨_, _, _, _, hz'⟩ | ⟨_, _, _, _, hz'⟩
            · omega
            · exact ih hz hz' i hm h2
      · have : i = lo := by omega
        subst this
        rw [hd1, hd1']
        cases d; cases d'; simp_all

end Sys2Proof.Machine
end

