-- ==== Sys2Proof/Laws/State.lean ====
section
/-! SUPPORT. One lemma for every field and every named update of State, true by rfl: no proof unfolds a record update. -/

namespace Sys2Proof.Machine

variable (s : State)

/-! ### Acceptance (60_exceptions.md R224) -/

@[simp] theorem State.accept_cfg (op : BitVec 4) : (s.accept op).cfg = s.cfg := rfl
@[simp] theorem State.accept_st (op : BitVec 4) : (s.accept op).st = s.st := rfl
@[simp] theorem State.accept_treeValid (op : BitVec 4) : (s.accept op).treeValid = s.treeValid := rfl
@[simp] theorem State.accept_resultValid (op : BitVec 4) : (s.accept op).resultValid = false := rfl
@[simp] theorem State.accept_overrun (op : BitVec 4) : (s.accept op).overrun = s.overrun := rfl
@[simp] theorem State.accept_err (op : BitVec 4) : (s.accept op).err = .ok := rfl
@[simp] theorem State.accept_lastop (op : BitVec 4) : (s.accept op).lastop = op := rfl
@[simp] theorem State.accept_rval (op : BitVec 4) : (s.accept op).rval = s.rval := rfl
@[simp] theorem State.accept_nsym (op : BitVec 4) : (s.accept op).nsym = s.nsym := rfl
@[simp] theorem State.accept_nnodes (op : BitVec 4) : (s.accept op).nnodes = s.nnodes := rfl
@[simp] theorem State.accept_bitcnt (op : BitVec 4) : (s.accept op).bitcnt = s.bitcnt := rfl
@[simp] theorem State.accept_nodeIdx (op : BitVec 4) : (s.accept op).nodeIdx = s.nodeIdx := rfl
@[simp] theorem State.accept_nodeVal (op : BitVec 4) : (s.accept op).nodeVal = s.nodeVal := rfl
@[simp] theorem State.accept_len (op : BitVec 4) : (s.accept op).len = s.len := rfl
@[simp] theorem State.accept_nodes (op : BitVec 4) : (s.accept op).nodes = s.nodes := rfl
@[simp] theorem State.accept_nextNode (op : BitVec 4) : (s.accept op).nextNode = s.nextNode := rfl
@[simp] theorem State.accept_pairs (op : BitVec 4) : (s.accept op).pairs = s.pairs := rfl
@[simp] theorem State.accept_codes (op : BitVec 4) : (s.accept op).codes = s.codes := rfl
@[simp] theorem State.accept_cur (op : BitVec 4) : (s.accept op).cur = s.cur := rfl
@[simp] theorem State.accept_source (op : BitVec 4) : (s.accept op).source = s.source := rfl
@[simp] theorem State.accept_host (op : BitVec 4) : (s.accept op).host = s.host := rfl
@[simp] theorem State.accept_turns (op : BitVec 4) : (s.accept op).turns = s.turns := rfl
@[simp] theorem State.accept_hostReads (op : BitVec 4) : (s.accept op).hostReads = s.hostReads := rfl
@[simp] theorem State.accept_draws (op : BitVec 4) : (s.accept op).draws = s.draws := rfl

/-! ### Raising an error (60_exceptions.md R221) -/

@[simp] theorem State.raise_cfg (code : ErrCode) : (s.raise code).cfg = s.cfg := rfl
@[simp] theorem State.raise_st (code : ErrCode) : (s.raise code).st = ctlAfter code := rfl
@[simp] theorem State.raise_treeValid (code : ErrCode) : (s.raise code).treeValid = s.treeValid := rfl
@[simp] theorem State.raise_resultValid (code : ErrCode) : (s.raise code).resultValid = s.resultValid := rfl
@[simp] theorem State.raise_overrun (code : ErrCode) : (s.raise code).overrun = s.overrun := rfl
@[simp] theorem State.raise_err (code : ErrCode) : (s.raise code).err = code := rfl
@[simp] theorem State.raise_lastop (code : ErrCode) : (s.raise code).lastop = s.lastop := rfl
@[simp] theorem State.raise_rval (code : ErrCode) : (s.raise code).rval = s.rval := rfl
@[simp] theorem State.raise_nsym (code : ErrCode) : (s.raise code).nsym = s.nsym := rfl
@[simp] theorem State.raise_nnodes (code : ErrCode) : (s.raise code).nnodes = s.nnodes := rfl
@[simp] theorem State.raise_bitcnt (code : ErrCode) : (s.raise code).bitcnt = s.bitcnt := rfl
@[simp] theorem State.raise_nodeIdx (code : ErrCode) : (s.raise code).nodeIdx = s.nodeIdx := rfl
@[simp] theorem State.raise_nodeVal (code : ErrCode) : (s.raise code).nodeVal = s.nodeVal := rfl
@[simp] theorem State.raise_len (code : ErrCode) : (s.raise code).len = s.len := rfl
@[simp] theorem State.raise_nodes (code : ErrCode) : (s.raise code).nodes = s.nodes := rfl
@[simp] theorem State.raise_nextNode (code : ErrCode) : (s.raise code).nextNode = s.nextNode := rfl
@[simp] theorem State.raise_pairs (code : ErrCode) : (s.raise code).pairs = s.pairs := rfl
@[simp] theorem State.raise_codes (code : ErrCode) : (s.raise code).codes = s.codes := rfl
@[simp] theorem State.raise_cur (code : ErrCode) : (s.raise code).cur = s.cur := rfl
@[simp] theorem State.raise_source (code : ErrCode) : (s.raise code).source = s.source := rfl
@[simp] theorem State.raise_host (code : ErrCode) : (s.raise code).host = s.host := rfl
@[simp] theorem State.raise_turns (code : ErrCode) : (s.raise code).turns = s.turns := rfl
@[simp] theorem State.raise_hostReads (code : ErrCode) : (s.raise code).hostReads = s.hostReads := rfl
@[simp] theorem State.raise_draws (code : ErrCode) : (s.raise code).draws = s.draws := rfl

/-! ### Discarding the tree (40_config_commands.md R104) -/

@[simp] theorem State.dropTree_cfg : s.dropTree.cfg = s.cfg := rfl
@[simp] theorem State.dropTree_st : s.dropTree.st = s.st := rfl
@[simp] theorem State.dropTree_treeValid : s.dropTree.treeValid = false := rfl
@[simp] theorem State.dropTree_resultValid : s.dropTree.resultValid = s.resultValid := rfl
@[simp] theorem State.dropTree_overrun : s.dropTree.overrun = s.overrun := rfl
@[simp] theorem State.dropTree_err : s.dropTree.err = s.err := rfl
@[simp] theorem State.dropTree_lastop : s.dropTree.lastop = s.lastop := rfl
@[simp] theorem State.dropTree_rval : s.dropTree.rval = s.rval := rfl
@[simp] theorem State.dropTree_nsym : s.dropTree.nsym = s.nsym := rfl
@[simp] theorem State.dropTree_nnodes : s.dropTree.nnodes = 0 := rfl
@[simp] theorem State.dropTree_bitcnt : s.dropTree.bitcnt = s.bitcnt := rfl
@[simp] theorem State.dropTree_nodeIdx : s.dropTree.nodeIdx = s.nodeIdx := rfl
@[simp] theorem State.dropTree_nodeVal : s.dropTree.nodeVal = s.nodeVal := rfl
@[simp] theorem State.dropTree_len : s.dropTree.len = s.len := rfl
@[simp] theorem State.dropTree_nodes : s.dropTree.nodes = s.nodes := rfl
@[simp] theorem State.dropTree_nextNode : s.dropTree.nextNode = s.nextNode := rfl
@[simp] theorem State.dropTree_pairs : s.dropTree.pairs = s.pairs := rfl
@[simp] theorem State.dropTree_codes : s.dropTree.codes = s.codes := rfl
@[simp] theorem State.dropTree_cur : s.dropTree.cur = s.cur := rfl
@[simp] theorem State.dropTree_source : s.dropTree.source = s.source := rfl
@[simp] theorem State.dropTree_host : s.dropTree.host = s.host := rfl
@[simp] theorem State.dropTree_turns : s.dropTree.turns = s.turns := rfl
@[simp] theorem State.dropTree_hostReads : s.dropTree.hostReads = s.hostReads := rfl
@[simp] theorem State.dropTree_draws : s.dropTree.draws = s.draws := rfl

/-! ### Leaving a result (10_state.md R24) -/

@[simp] theorem State.setResult_cfg (v : Half) : (s.setResult v).cfg = s.cfg := rfl
@[simp] theorem State.setResult_st (v : Half) : (s.setResult v).st = s.st := rfl
@[simp] theorem State.setResult_treeValid (v : Half) : (s.setResult v).treeValid = s.treeValid := rfl
@[simp] theorem State.setResult_resultValid (v : Half) : (s.setResult v).resultValid = true := rfl
@[simp] theorem State.setResult_overrun (v : Half) : (s.setResult v).overrun = s.overrun := rfl
@[simp] theorem State.setResult_err (v : Half) : (s.setResult v).err = s.err := rfl
@[simp] theorem State.setResult_lastop (v : Half) : (s.setResult v).lastop = s.lastop := rfl
@[simp] theorem State.setResult_rval (v : Half) : (s.setResult v).rval = v := rfl
@[simp] theorem State.setResult_nsym (v : Half) : (s.setResult v).nsym = s.nsym := rfl
@[simp] theorem State.setResult_nnodes (v : Half) : (s.setResult v).nnodes = s.nnodes := rfl
@[simp] theorem State.setResult_bitcnt (v : Half) : (s.setResult v).bitcnt = s.bitcnt := rfl
@[simp] theorem State.setResult_nodeIdx (v : Half) : (s.setResult v).nodeIdx = s.nodeIdx := rfl
@[simp] theorem State.setResult_nodeVal (v : Half) : (s.setResult v).nodeVal = s.nodeVal := rfl
@[simp] theorem State.setResult_len (v : Half) : (s.setResult v).len = s.len := rfl
@[simp] theorem State.setResult_nodes (v : Half) : (s.setResult v).nodes = s.nodes := rfl
@[simp] theorem State.setResult_nextNode (v : Half) : (s.setResult v).nextNode = s.nextNode := rfl
@[simp] theorem State.setResult_pairs (v : Half) : (s.setResult v).pairs = s.pairs := rfl
@[simp] theorem State.setResult_codes (v : Half) : (s.setResult v).codes = s.codes := rfl
@[simp] theorem State.setResult_cur (v : Half) : (s.setResult v).cur = s.cur := rfl
@[simp] theorem State.setResult_source (v : Half) : (s.setResult v).source = s.source := rfl
@[simp] theorem State.setResult_host (v : Half) : (s.setResult v).host = s.host := rfl
@[simp] theorem State.setResult_turns (v : Half) : (s.setResult v).turns = s.turns := rfl
@[simp] theorem State.setResult_hostReads (v : Half) : (s.setResult v).hostReads = s.hostReads := rfl
@[simp] theorem State.setResult_draws (v : Half) : (s.setResult v).draws = s.draws := rfl

/-! ### Writing a LEN entry (10_state.md R32) -/

@[simp] theorem State.writeLen_cfg (i : Nat) (v : Byte) : (s.writeLen i v).cfg = s.cfg := rfl
@[simp] theorem State.writeLen_st (i : Nat) (v : Byte) : (s.writeLen i v).st = s.st := rfl
@[simp] theorem State.writeLen_treeValid (i : Nat) (v : Byte) : (s.writeLen i v).treeValid = s.treeValid := rfl
@[simp] theorem State.writeLen_resultValid (i : Nat) (v : Byte) : (s.writeLen i v).resultValid = s.resultValid := rfl
@[simp] theorem State.writeLen_overrun (i : Nat) (v : Byte) : (s.writeLen i v).overrun = s.overrun := rfl
@[simp] theorem State.writeLen_err (i : Nat) (v : Byte) : (s.writeLen i v).err = s.err := rfl
@[simp] theorem State.writeLen_lastop (i : Nat) (v : Byte) : (s.writeLen i v).lastop = s.lastop := rfl
@[simp] theorem State.writeLen_rval (i : Nat) (v : Byte) : (s.writeLen i v).rval = s.rval := rfl
@[simp] theorem State.writeLen_nsym (i : Nat) (v : Byte) : (s.writeLen i v).nsym = s.nsym := rfl
@[simp] theorem State.writeLen_nnodes (i : Nat) (v : Byte) : (s.writeLen i v).nnodes = s.nnodes := rfl
@[simp] theorem State.writeLen_bitcnt (i : Nat) (v : Byte) : (s.writeLen i v).bitcnt = s.bitcnt := rfl
@[simp] theorem State.writeLen_nodeIdx (i : Nat) (v : Byte) : (s.writeLen i v).nodeIdx = s.nodeIdx := rfl
@[simp] theorem State.writeLen_nodeVal (i : Nat) (v : Byte) : (s.writeLen i v).nodeVal = s.nodeVal := rfl
@[simp] theorem State.writeLen_len (i : Nat) (v : Byte) : (s.writeLen i v).len = Memory.write s.len i v := rfl
@[simp] theorem State.writeLen_nodes (i : Nat) (v : Byte) : (s.writeLen i v).nodes = s.nodes := rfl
@[simp] theorem State.writeLen_nextNode (i : Nat) (v : Byte) : (s.writeLen i v).nextNode = s.nextNode := rfl
@[simp] theorem State.writeLen_pairs (i : Nat) (v : Byte) : (s.writeLen i v).pairs = s.pairs := rfl
@[simp] theorem State.writeLen_codes (i : Nat) (v : Byte) : (s.writeLen i v).codes = s.codes := rfl
@[simp] theorem State.writeLen_cur (i : Nat) (v : Byte) : (s.writeLen i v).cur = s.cur := rfl
@[simp] theorem State.writeLen_source (i : Nat) (v : Byte) : (s.writeLen i v).source = s.source := rfl
@[simp] theorem State.writeLen_host (i : Nat) (v : Byte) : (s.writeLen i v).host = s.host := rfl
@[simp] theorem State.writeLen_turns (i : Nat) (v : Byte) : (s.writeLen i v).turns = s.turns := rfl
@[simp] theorem State.writeLen_hostReads (i : Nat) (v : Byte) : (s.writeLen i v).hostReads = s.hostReads := rfl
@[simp] theorem State.writeLen_draws (i : Nat) (v : Byte) : (s.writeLen i v).draws = s.draws := rfl

/-! ### Reading a LEN entry (10_state.md R39) -/

@[simp] theorem State.afterReadLen_cfg (i : Nat) : (s.afterReadLen i).cfg = s.cfg := rfl
@[simp] theorem State.afterReadLen_st (i : Nat) : (s.afterReadLen i).st = s.st := rfl
@[simp] theorem State.afterReadLen_treeValid (i : Nat) : (s.afterReadLen i).treeValid = s.treeValid := rfl
@[simp] theorem State.afterReadLen_resultValid (i : Nat) : (s.afterReadLen i).resultValid = s.resultValid := rfl
@[simp] theorem State.afterReadLen_overrun (i : Nat) : (s.afterReadLen i).overrun = s.overrun := rfl
@[simp] theorem State.afterReadLen_err (i : Nat) : (s.afterReadLen i).err = s.err := rfl
@[simp] theorem State.afterReadLen_lastop (i : Nat) : (s.afterReadLen i).lastop = s.lastop := rfl
@[simp] theorem State.afterReadLen_rval (i : Nat) : (s.afterReadLen i).rval = s.rval := rfl
@[simp] theorem State.afterReadLen_nsym (i : Nat) : (s.afterReadLen i).nsym = s.nsym := rfl
@[simp] theorem State.afterReadLen_nnodes (i : Nat) : (s.afterReadLen i).nnodes = s.nnodes := rfl
@[simp] theorem State.afterReadLen_bitcnt (i : Nat) : (s.afterReadLen i).bitcnt = s.bitcnt := rfl
@[simp] theorem State.afterReadLen_nodeIdx (i : Nat) : (s.afterReadLen i).nodeIdx = s.nodeIdx := rfl
@[simp] theorem State.afterReadLen_nodeVal (i : Nat) : (s.afterReadLen i).nodeVal = s.nodeVal := rfl
@[simp] theorem State.afterReadLen_len (i : Nat) : (s.afterReadLen i).len = s.len := rfl
@[simp] theorem State.afterReadLen_nodes (i : Nat) : (s.afterReadLen i).nodes = s.nodes := rfl
@[simp] theorem State.afterReadLen_nextNode (i : Nat) : (s.afterReadLen i).nextNode = s.nextNode := rfl
@[simp] theorem State.afterReadLen_pairs (i : Nat) : (s.afterReadLen i).pairs = s.pairs := rfl
@[simp] theorem State.afterReadLen_codes (i : Nat) : (s.afterReadLen i).codes = s.codes := rfl
@[simp] theorem State.afterReadLen_cur (i : Nat) : (s.afterReadLen i).cur = s.cur := rfl
@[simp] theorem State.afterReadLen_source (i : Nat) : (s.afterReadLen i).source = s.source := rfl
@[simp] theorem State.afterReadLen_host (i : Nat) : (s.afterReadLen i).host = s.host := rfl
@[simp] theorem State.afterReadLen_turns (i : Nat) : (s.afterReadLen i).turns = s.turns := rfl
@[simp] theorem State.afterReadLen_hostReads (i : Nat) : (s.afterReadLen i).hostReads = s.hostReads := rfl
@[simp] theorem State.afterReadLen_draws (i : Nat) : (s.afterReadLen i).draws = (lenValue s.len s.draws i).2 := rfl

/-! ### BUILD, step 2 (41_build.md R132) -/

@[simp] theorem State.formPairs_cfg : s.formPairs.cfg = s.cfg := rfl
@[simp] theorem State.formPairs_st : s.formPairs.st = s.st := rfl
@[simp] theorem State.formPairs_treeValid : s.formPairs.treeValid = s.treeValid := rfl
@[simp] theorem State.formPairs_resultValid : s.formPairs.resultValid = s.resultValid := rfl
@[simp] theorem State.formPairs_overrun : s.formPairs.overrun = s.overrun := rfl
@[simp] theorem State.formPairs_err : s.formPairs.err = s.err := rfl
@[simp] theorem State.formPairs_lastop : s.formPairs.lastop = s.lastop := rfl
@[simp] theorem State.formPairs_rval : s.formPairs.rval = s.rval := rfl
@[simp] theorem State.formPairs_nsym : s.formPairs.nsym = s.nsym := rfl
@[simp] theorem State.formPairs_nnodes : s.formPairs.nnodes = s.nnodes := rfl
@[simp] theorem State.formPairs_bitcnt : s.formPairs.bitcnt = s.bitcnt := rfl
@[simp] theorem State.formPairs_nodeIdx : s.formPairs.nodeIdx = s.nodeIdx := rfl
@[simp] theorem State.formPairs_nodeVal : s.formPairs.nodeVal = s.nodeVal := rfl
@[simp] theorem State.formPairs_len : s.formPairs.len = s.len := rfl
@[simp] theorem State.formPairs_nodes : s.formPairs.nodes = s.nodes := rfl
@[simp] theorem State.formPairs_nextNode : s.formPairs.nextNode = s.nextNode := rfl
@[simp] theorem State.formPairs_pairs : s.formPairs.pairs = s.sortedPairs := rfl
@[simp] theorem State.formPairs_codes : s.formPairs.codes = s.codes := rfl
@[simp] theorem State.formPairs_cur : s.formPairs.cur = s.cur := rfl
@[simp] theorem State.formPairs_source : s.formPairs.source = s.source := rfl
@[simp] theorem State.formPairs_host : s.formPairs.host = s.host := rfl
@[simp] theorem State.formPairs_turns : s.formPairs.turns = s.turns := rfl
@[simp] theorem State.formPairs_hostReads : s.formPairs.hostReads = s.hostReads := rfl
@[simp] theorem State.formPairs_draws : s.formPairs.draws = (readPairs s.len s.nsym.toNat 0 s.draws).2 := rfl

/-! ### BUILD, steps 3 and 4 (41_build.md R133, R135) -/

@[simp] theorem State.formCodes_cfg : s.formCodes.cfg = s.cfg := rfl
@[simp] theorem State.formCodes_st : s.formCodes.st = s.st := rfl
@[simp] theorem State.formCodes_treeValid : s.formCodes.treeValid = s.treeValid := rfl
@[simp] theorem State.formCodes_resultValid : s.formCodes.resultValid = s.resultValid := rfl
@[simp] theorem State.formCodes_overrun : s.formCodes.overrun = s.overrun := rfl
@[simp] theorem State.formCodes_err : s.formCodes.err = s.err := rfl
@[simp] theorem State.formCodes_lastop : s.formCodes.lastop = s.lastop := rfl
@[simp] theorem State.formCodes_rval : s.formCodes.rval = s.rval := rfl
@[simp] theorem State.formCodes_nsym : s.formCodes.nsym = s.nsym := rfl
@[simp] theorem State.formCodes_nnodes : s.formCodes.nnodes = s.nnodes := rfl
@[simp] theorem State.formCodes_bitcnt : s.formCodes.bitcnt = s.bitcnt := rfl
@[simp] theorem State.formCodes_nodeIdx : s.formCodes.nodeIdx = s.nodeIdx := rfl
@[simp] theorem State.formCodes_nodeVal : s.formCodes.nodeVal = s.nodeVal := rfl
@[simp] theorem State.formCodes_len : s.formCodes.len = s.len := rfl
@[simp] theorem State.formCodes_nodes : s.formCodes.nodes = s.nodes := rfl
@[simp] theorem State.formCodes_nextNode : s.formCodes.nextNode = s.nextNode := rfl
@[simp] theorem State.formCodes_pairs : s.formCodes.pairs = s.pairs := rfl
@[simp] theorem State.formCodes_codes : s.formCodes.codes = sortStable Triple.le (assignCodes s.pairs).codes := rfl
@[simp] theorem State.formCodes_cur : s.formCodes.cur = s.cur := rfl
@[simp] theorem State.formCodes_source : s.formCodes.source = s.source := rfl
@[simp] theorem State.formCodes_host : s.formCodes.host = s.host := rfl
@[simp] theorem State.formCodes_turns : s.formCodes.turns = s.turns := rfl
@[simp] theorem State.formCodes_hostReads : s.formCodes.hostReads = s.hostReads := rfl
@[simp] theorem State.formCodes_draws : s.formCodes.draws = s.draws := rfl

/-! ### BUILD, step 5 (41_build.md R136) -/

@[simp] theorem State.storeTree_cfg : s.storeTree.cfg = s.cfg := rfl
@[simp] theorem State.storeTree_st : s.storeTree.st = s.st := rfl
@[simp] theorem State.storeTree_treeValid : s.storeTree.treeValid = s.treeValid := rfl
@[simp] theorem State.storeTree_resultValid : s.storeTree.resultValid = s.resultValid := rfl
@[simp] theorem State.storeTree_overrun : s.storeTree.overrun = s.overrun := rfl
@[simp] theorem State.storeTree_err : s.storeTree.err = s.err := rfl
@[simp] theorem State.storeTree_lastop : s.storeTree.lastop = s.lastop := rfl
@[simp] theorem State.storeTree_rval : s.storeTree.rval = s.rval := rfl
@[simp] theorem State.storeTree_nsym : s.storeTree.nsym = s.nsym := rfl
@[simp] theorem State.storeTree_nnodes : s.storeTree.nnodes = s.nnodes := rfl
@[simp] theorem State.storeTree_bitcnt : s.storeTree.bitcnt = s.bitcnt := rfl
@[simp] theorem State.storeTree_nodeIdx : s.storeTree.nodeIdx = s.nodeIdx := rfl
@[simp] theorem State.storeTree_nodeVal : s.storeTree.nodeVal = s.nodeVal := rfl
@[simp] theorem State.storeTree_len : s.storeTree.len = s.len := rfl
@[simp] theorem State.storeTree_nodes : s.storeTree.nodes = s.partitionResult.2.nodes := rfl
@[simp] theorem State.storeTree_nextNode : s.storeTree.nextNode = s.partitionResult.2.next := rfl
@[simp] theorem State.storeTree_pairs : s.storeTree.pairs = s.pairs := rfl
@[simp] theorem State.storeTree_codes : s.storeTree.codes = s.codes := rfl
@[simp] theorem State.storeTree_cur : s.storeTree.cur = s.cur := rfl
@[simp] theorem State.storeTree_source : s.storeTree.source = s.source := rfl
@[simp] theorem State.storeTree_host : s.storeTree.host = s.host := rfl
@[simp] theorem State.storeTree_turns : s.storeTree.turns = s.turns := rfl
@[simp] theorem State.storeTree_hostReads : s.storeTree.hostReads = s.hostReads := rfl
@[simp] theorem State.storeTree_draws : s.storeTree.draws = s.draws := rfl

/-! ### The end of BUILD's scratch (10_state.md R35) -/

@[simp] theorem State.dropScratch_cfg : s.dropScratch.cfg = s.cfg := rfl
@[simp] theorem State.dropScratch_st : s.dropScratch.st = s.st := rfl
@[simp] theorem State.dropScratch_treeValid : s.dropScratch.treeValid = s.treeValid := rfl
@[simp] theorem State.dropScratch_resultValid : s.dropScratch.resultValid = s.resultValid := rfl
@[simp] theorem State.dropScratch_overrun : s.dropScratch.overrun = s.overrun := rfl
@[simp] theorem State.dropScratch_err : s.dropScratch.err = s.err := rfl
@[simp] theorem State.dropScratch_lastop : s.dropScratch.lastop = s.lastop := rfl
@[simp] theorem State.dropScratch_rval : s.dropScratch.rval = s.rval := rfl
@[simp] theorem State.dropScratch_nsym : s.dropScratch.nsym = s.nsym := rfl
@[simp] theorem State.dropScratch_nnodes : s.dropScratch.nnodes = s.nnodes := rfl
@[simp] theorem State.dropScratch_bitcnt : s.dropScratch.bitcnt = s.bitcnt := rfl
@[simp] theorem State.dropScratch_nodeIdx : s.dropScratch.nodeIdx = s.nodeIdx := rfl
@[simp] theorem State.dropScratch_nodeVal : s.dropScratch.nodeVal = s.nodeVal := rfl
@[simp] theorem State.dropScratch_len : s.dropScratch.len = s.len := rfl
@[simp] theorem State.dropScratch_nodes : s.dropScratch.nodes = s.nodes := rfl
@[simp] theorem State.dropScratch_nextNode : s.dropScratch.nextNode = s.nextNode := rfl
@[simp] theorem State.dropScratch_pairs : s.dropScratch.pairs = [] := rfl
@[simp] theorem State.dropScratch_codes : s.dropScratch.codes = [] := rfl
@[simp] theorem State.dropScratch_cur : s.dropScratch.cur = s.cur := rfl
@[simp] theorem State.dropScratch_source : s.dropScratch.source = s.source := rfl
@[simp] theorem State.dropScratch_host : s.dropScratch.host = s.host := rfl
@[simp] theorem State.dropScratch_turns : s.dropScratch.turns = s.turns := rfl
@[simp] theorem State.dropScratch_hostReads : s.dropScratch.hostReads = s.hostReads := rfl
@[simp] theorem State.dropScratch_draws : s.dropScratch.draws = s.draws := rfl

/-! ### A host read (20_memory.md R63) -/

@[simp] theorem State.hostGets_cfg (v : Word) : (s.hostGets v).cfg = s.cfg := rfl
@[simp] theorem State.hostGets_st (v : Word) : (s.hostGets v).st = s.st := rfl
@[simp] theorem State.hostGets_treeValid (v : Word) : (s.hostGets v).treeValid = s.treeValid := rfl
@[simp] theorem State.hostGets_resultValid (v : Word) : (s.hostGets v).resultValid = s.resultValid := rfl
@[simp] theorem State.hostGets_overrun (v : Word) : (s.hostGets v).overrun = s.overrun := rfl
@[simp] theorem State.hostGets_err (v : Word) : (s.hostGets v).err = s.err := rfl
@[simp] theorem State.hostGets_lastop (v : Word) : (s.hostGets v).lastop = s.lastop := rfl
@[simp] theorem State.hostGets_rval (v : Word) : (s.hostGets v).rval = s.rval := rfl
@[simp] theorem State.hostGets_nsym (v : Word) : (s.hostGets v).nsym = s.nsym := rfl
@[simp] theorem State.hostGets_nnodes (v : Word) : (s.hostGets v).nnodes = s.nnodes := rfl
@[simp] theorem State.hostGets_bitcnt (v : Word) : (s.hostGets v).bitcnt = s.bitcnt := rfl
@[simp] theorem State.hostGets_nodeIdx (v : Word) : (s.hostGets v).nodeIdx = s.nodeIdx := rfl
@[simp] theorem State.hostGets_nodeVal (v : Word) : (s.hostGets v).nodeVal = s.nodeVal := rfl
@[simp] theorem State.hostGets_len (v : Word) : (s.hostGets v).len = s.len := rfl
@[simp] theorem State.hostGets_nodes (v : Word) : (s.hostGets v).nodes = s.nodes := rfl
@[simp] theorem State.hostGets_nextNode (v : Word) : (s.hostGets v).nextNode = s.nextNode := rfl
@[simp] theorem State.hostGets_pairs (v : Word) : (s.hostGets v).pairs = s.pairs := rfl
@[simp] theorem State.hostGets_codes (v : Word) : (s.hostGets v).codes = s.codes := rfl
@[simp] theorem State.hostGets_cur (v : Word) : (s.hostGets v).cur = s.cur := rfl
@[simp] theorem State.hostGets_source (v : Word) : (s.hostGets v).source = s.source := rfl
@[simp] theorem State.hostGets_host (v : Word) : (s.hostGets v).host = s.host := rfl
@[simp] theorem State.hostGets_turns (v : Word) : (s.hostGets v).turns = s.turns := rfl
@[simp] theorem State.hostGets_hostReads (v : Word) : (s.hostGets v).hostReads = v :: s.hostReads := rfl
@[simp] theorem State.hostGets_draws (v : Word) : (s.hostGets v).draws = s.draws := rfl

/-! ### The host about to write a command to an idle block -/

@[simp] theorem State.presenting_cfg (w : Word) : (s.presenting w).cfg = s.cfg := rfl
@[simp] theorem State.presenting_st (w : Word) : (s.presenting w).st = .idle := rfl
@[simp] theorem State.presenting_treeValid (w : Word) : (s.presenting w).treeValid = s.treeValid := rfl
@[simp] theorem State.presenting_resultValid (w : Word) : (s.presenting w).resultValid = s.resultValid := rfl
@[simp] theorem State.presenting_overrun (w : Word) : (s.presenting w).overrun = s.overrun := rfl
@[simp] theorem State.presenting_err (w : Word) : (s.presenting w).err = s.err := rfl
@[simp] theorem State.presenting_lastop (w : Word) : (s.presenting w).lastop = s.lastop := rfl
@[simp] theorem State.presenting_rval (w : Word) : (s.presenting w).rval = s.rval := rfl
@[simp] theorem State.presenting_nsym (w : Word) : (s.presenting w).nsym = s.nsym := rfl
@[simp] theorem State.presenting_nnodes (w : Word) : (s.presenting w).nnodes = s.nnodes := rfl
@[simp] theorem State.presenting_bitcnt (w : Word) : (s.presenting w).bitcnt = s.bitcnt := rfl
@[simp] theorem State.presenting_nodeIdx (w : Word) : (s.presenting w).nodeIdx = s.nodeIdx := rfl
@[simp] theorem State.presenting_nodeVal (w : Word) : (s.presenting w).nodeVal = s.nodeVal := rfl
@[simp] theorem State.presenting_len (w : Word) : (s.presenting w).len = s.len := rfl
@[simp] theorem State.presenting_nodes (w : Word) : (s.presenting w).nodes = s.nodes := rfl
@[simp] theorem State.presenting_nextNode (w : Word) : (s.presenting w).nextNode = s.nextNode := rfl
@[simp] theorem State.presenting_pairs (w : Word) : (s.presenting w).pairs = s.pairs := rfl
@[simp] theorem State.presenting_codes (w : Word) : (s.presenting w).codes = s.codes := rfl
@[simp] theorem State.presenting_cur (w : Word) : (s.presenting w).cur = s.cur := rfl
@[simp] theorem State.presenting_source (w : Word) : (s.presenting w).source = s.source := rfl
@[simp] theorem State.presenting_host (w : Word) : (s.presenting w).host = .memWrite s.cfg.htbBase 4 w :: s.host := rfl
@[simp] theorem State.presenting_turns (w : Word) : (s.presenting w).turns = .host :: s.turns := rfl
@[simp] theorem State.presenting_hostReads (w : Word) : (s.presenting w).hostReads = s.hostReads := rfl
@[simp] theorem State.presenting_draws (w : Word) : (s.presenting w).draws = s.draws := rfl

/-! ### The reset input (70_reset_and_hazards.md R260, R261) -/

@[simp] theorem State.resetInput_cfg : s.resetInput.cfg = s.cfg := rfl
@[simp] theorem State.resetInput_st : s.resetInput.st = .idle := rfl
@[simp] theorem State.resetInput_treeValid : s.resetInput.treeValid = false := rfl
@[simp] theorem State.resetInput_resultValid : s.resetInput.resultValid = false := rfl
@[simp] theorem State.resetInput_overrun : s.resetInput.overrun = false := rfl
@[simp] theorem State.resetInput_err : s.resetInput.err = .ok := rfl
@[simp] theorem State.resetInput_lastop : s.resetInput.lastop = 0 := rfl
@[simp] theorem State.resetInput_rval : s.resetInput.rval = 0 := rfl
@[simp] theorem State.resetInput_nsym : s.resetInput.nsym = 0 := rfl
@[simp] theorem State.resetInput_nnodes : s.resetInput.nnodes = 0 := rfl
@[simp] theorem State.resetInput_bitcnt : s.resetInput.bitcnt = 0 := rfl
@[simp] theorem State.resetInput_nodeIdx : s.resetInput.nodeIdx = 0 := rfl
@[simp] theorem State.resetInput_nodeVal : s.resetInput.nodeVal = 0 := rfl
@[simp] theorem State.resetInput_len : s.resetInput.len = [] := rfl
@[simp] theorem State.resetInput_nodes : s.resetInput.nodes = [] := rfl
@[simp] theorem State.resetInput_nextNode : s.resetInput.nextNode = 0 := rfl
@[simp] theorem State.resetInput_pairs : s.resetInput.pairs = [] := rfl
@[simp] theorem State.resetInput_codes : s.resetInput.codes = [] := rfl
@[simp] theorem State.resetInput_cur : s.resetInput.cur = 0 := rfl
@[simp] theorem State.resetInput_source : s.resetInput.source = s.source := rfl
@[simp] theorem State.resetInput_host : s.resetInput.host = s.host := rfl
@[simp] theorem State.resetInput_turns : s.resetInput.turns = s.turns := rfl
@[simp] theorem State.resetInput_hostReads : s.resetInput.hostReads = s.hostReads := rfl
@[simp] theorem State.resetInput_draws : s.resetInput.draws = s.draws := rfl

end Sys2Proof.Machine
end

