-- ==== Sys2Proof/Laws/Build.lean ====
section
/-! SUPPORT. What BUILD's completion step leaves (41_build.md R132 to R149): PAIRS and CODES, the node array, and the tree as
the decoder sees it. -/

namespace Sys2Proof.Machine

/-! ### PAIRS (R132) -/

@[simp] theorem readPairs_length (len : List Host.Cell) (n i draws : Nat) :
    (readPairs len n i draws).1.length = n := by
  induction n generalizing i draws with
  | zero => rfl
  | succ n ih => simp [readPairs, ih]

theorem readPairs_symbols (len : List Host.Cell) (n i draws : Nat) :
    (readPairs len n i draws).1.map Pair.symbol = (List.range' i n).map (BitVec.ofNat 16) := by
  induction n generalizing i draws with
  | zero => rfl
  | succ n ih => simp [readPairs, ih, List.range'_succ]

/-- When every entry read has been written, PAIRS holds the entries and no free draw is made. -/
theorem readPairs_written (len : List Host.Cell) (n i draws : Nat)
    (h : ∀ j, i ≤ j → j < i + n → (Memory.read len j).isSome = true) :
    readPairs len n i draws =
      ((List.range' i n).map fun j => ⟨(Memory.read len j).getD 0, BitVec.ofNat 16 j⟩, draws) := by
  induction n generalizing i draws with
  | zero => rfl
  | succ n ih =>
    obtain ⟨v, hv⟩ := Option.isSome_iff_exists.mp (h i (by omega) (by omega))
    have hl : lenValue len draws i = (v, draws) := by simp [lenValue, hv]
    simp only [readPairs, hl, ih (i + 1) draws fun j h1 h2 => h j (by omega) (by omega), List.range'_succ,
      List.map_cons, hv, Option.getD_some]

/-- A written entry is read as it stands, whatever the other entries are. -/
theorem mem_readPairs_of_written (len : List Host.Cell) (n i draws j : Nat) (v : Byte) (hij : i ≤ j) (hj : j < i + n)
    (hv : Memory.read len j = some v) : (readPairs len n i draws).1[j - i]? = some ⟨v, BitVec.ofNat 16 j⟩ := by
  induction n generalizing i draws with
  | zero => omega
  | succ n ih =>
    simp only [readPairs]
    by_cases h : j = i
    · subst h
      simp [lenValue, hv]
    · have h1 : j - i = (j - (i + 1)) + 1 := by omega
      rw [h1, List.getElem?_cons_succ]
      exact ih (i + 1) _ (by omega) (by omega)

theorem readPairs_congr (len len' : List Host.Cell) (n i draws draws' : Nat)
    (h : ∀ j, i ≤ j → j < i + n → (Memory.read len j).isSome = true)
    (hl : ∀ j, i ≤ j → j < i + n → Memory.read len' j = Memory.read len j) :
    (readPairs len' n i draws').1 = (readPairs len n i draws).1 := by
  rw [readPairs_written len n i draws h, readPairs_written len' n i draws' fun j h1 h2 => by rw [hl j h1 h2]; exact h j h1 h2]
  simp only [List.map_inj_left, List.mem_range'_1]
  intro j hj
  rw [hl j hj.1 (by omega)]

@[simp] theorem sortedPairs_length (s : State) : s.sortedPairs.length = s.nsym.toNat := by
  simp [State.sortedPairs]

theorem symbol_lt_of_mem_sortedPairs {s : State} {p : Pair} (h : p ∈ s.sortedPairs) : p.symbol.toNat < s.nsym.toNat := by
  rw [State.sortedPairs, mem_sortStable] at h
  have := List.mem_map_of_mem (f := Pair.symbol) h
  rw [readPairs_symbols, List.mem_map] at this
  obtain ⟨j, hj, hp⟩ := this
  rw [List.mem_range'_1] at hj
  have := s.nsym.isLt
  rw [← hp, BitVec.toNat_ofNat, Nat.mod_eq_of_lt (by omega)]
  omega

/-! ### CODES (R133, R135) -/

@[simp] theorem assignCodes_length (ps : List Pair) : (assignCodes ps).codes.length = ps.length := by
  induction ps with
  | nil => rfl
  | cons p ps ih => simp [assignCodes, Walk.visit, ih]

theorem assignCodes_symbols (ps : List Pair) : (assignCodes ps).codes.map Triple.symbol = ps.map Pair.symbol := by
  induction ps with
  | nil => rfl
  | cons p ps ih => simp [assignCodes, Walk.visit, ih]

@[simp] theorem storedCodes_length (s : State) : (storedCodes s).length = s.nsym.toNat := by simp [storedCodes]

theorem symbol_lt_of_mem_storedCodes {s : State} {x : Triple} (h : x ∈ storedCodes s) :
    x.symbol.toNat < s.nsym.toNat := by
  have := List.mem_map_of_mem (f := Triple.symbol) h
  rw [storedCodes, assignCodes_symbols, List.mem_map] at this
  obtain ⟨p, hp, hps⟩ := this
  rw [← hps]
  exact symbol_lt_of_mem_sortedPairs hp

/-- CODES after step 4. -/
def sortedCodes (s : State) : List Triple := sortStable Triple.le (storedCodes s)

theorem formCodes_codes (s : State) : s.formPairs.formCodes.codes = sortedCodes s := rfl

@[simp] theorem sortedCodes_length (s : State) : (sortedCodes s).length = s.nsym.toNat := by simp [sortedCodes]

theorem sortedCodes_sorted (s : State) : CodeSorted (sortedCodes s) := sortedTriples_sorted _

theorem sortedCodes_agree (s : State) : Agree 32 (sortedCodes s) := fun _ _ _ _ q hq => by omega

theorem distinct_sortedCodes (s : State) : DistinctCodes (sortedCodes s) ↔ CodesDistinct s :=
  ((sortStable_perm Triple.le (storedCodes s)).map Triple.code).nodup_iff

/-- A build starts with room for all its nodes (R142: "NEXT_NODE never passes NODE_CAP"). -/
theorem sortedCodes_fit (s : State) : (0 : Half).toNat + (sortedCodes s).length ≤ 65536 := by
  have h0 : (0 : Half).toNat = 0 := rfl
  have := s.nsym.isLt
  rw [sortedCodes_length, h0]
  omega

theorem symbol_lt_of_mem_sortedCodes {s : State} {x : Triple} (h : x ∈ sortedCodes s) :
    x.symbol.toNat < s.nsym.toNat := symbol_lt_of_mem_storedCodes ((mem_sortStable _ _ _).mp h)

/-! ### The completion step (R141) -/

/-- BuildTree's partition of `s` (R136). -/
def buildPartition (s : State) : Built × TreeMem := partition 32 (sortedCodes s) { nodes := s.nodes, next := 0 }

theorem partitionResult_eq (s : State) : s.formPairs.formCodes.partitionResult = buildPartition s := rfl

/-- The completion step, when the codes are distinct: a tree of N - 1 nodes. -/
theorem buildComplete_ok (s : State) {n : Half} (h : (buildPartition s).1 = .node n) :
    s.buildComplete = { s with
      st := .idle, treeValid := true, nnodes := (buildPartition s).2.next, nextNode := (buildPartition s).2.next,
      nodes := (buildPartition s).2.nodes, draws := s.formPairs.draws, pairs := [], codes := [] } := by
  simp only [State.buildComplete, partitionResult_eq, h, State.commitTree]
  rfl

/-- The completion step, when BuildTree fails. -/
theorem buildComplete_failed (s : State) {e : ErrCode} (h : (buildPartition s).1 = .failed e) :
    s.buildComplete = { s with
      st := ctlAfter e, err := e, nextNode := (buildPartition s).2.next,
      nodes := (buildPartition s).2.nodes, draws := s.formPairs.draws, pairs := [], codes := [] } := by
  simp only [State.buildComplete, partitionResult_eq, h, State.commitTree]
  rfl

/-- What the completion step may change. -/
theorem buildComplete_frame (s : State) : s.buildComplete = { s with
    st := s.buildComplete.st, err := s.buildComplete.err, treeValid := s.buildComplete.treeValid,
    nnodes := s.buildComplete.nnodes, nodes := s.buildComplete.nodes, nextNode := s.buildComplete.nextNode,
    draws := s.buildComplete.draws, pairs := [], codes := [] } := by
  cases h : (buildPartition s).1 with
  | node n => rw [buildComplete_ok s h]
  | failed e => rw [buildComplete_failed s h]

/-- Partition fails with EQUAL or EMPTY only (60_exceptions.md R220). -/
theorem partition_failed (k : Nat) (r : List Triple) (m : TreeMem) (e : ErrCode)
    (h : (partition k r m).1 = .failed e) : e = .equal ∨ e = .empty := by
  induction k generalizing r m with
  | zero => cases h; exact .inl rfl
  | succ k ih =>
    have side : ∀ sd n r' m', (fillSide sd n r' (partition k r') m').1 = .failed e → e = .equal ∨ e = .empty := by
      intro sd n r' m' h'
      unfold fillSide at h'
      split at h'
      · cases h'
      · cases hp : partition k r' m' with
        | mk b m'' =>
          rw [hp] at h'
          cases b with
          | node c => cases h'
          | failed e' => cases h'; exact ih r' m' (by rw [hp])
    rw [partition] at h
    split at h
    · split at h
      · cases h; exact .inr rfl
      · split at h
        · cases h; exact .inl rfl
        · exact ih _ _ h
    · simp only [normalSplit] at h
      cases hl : fillSide .left m.next (zeros r (31 - k)) (partition k (zeros r (31 - k))) m.alloc with
      | mk b m' =>
        rw [hl] at h
        cases b with
        | node c => exact side _ _ _ _ h
        | failed e' => cases h; exact side _ _ _ _ (by rw [hl])

theorem buildPartition_grown (s : State) (h2 : 2 ≤ s.nsym.toNat) :
    Grown (fun _ => True) { nodes := s.nodes, next := 0 } (buildPartition s).2 s.nsym.toNat ∧
      ∀ e, (buildPartition s).1 = .failed e → e = .equal := by
  have := partition_grown 32 (sortedCodes s) { nodes := s.nodes, next := 0 } (by simpa using h2)
    (sortedCodes_fit s)
  rwa [sortedCodes_length] at this

theorem buildPartition_tree (s : State) (h2 : 2 ≤ s.nsym.toNat) (hd : CodesDistinct s) :
    (buildPartition s).1 = .node 0 ∧
      TreeFor (buildPartition s).2.nodes 32 (sortedCodes s) 0 (buildPartition s).2.next.toNat :=
  partition_tree 32 (le_refl _) (sortedCodes s) { nodes := s.nodes, next := 0 } (by simpa using h2)
    (sortedCodes_fit s)
    (sortedCodes_sorted s) (sortedCodes_agree s) ((distinct_sortedCodes s).mpr hd)

theorem buildPartition_equal (s : State) (h2 : 2 ≤ s.nsym.toNat) (hd : ¬ CodesDistinct s) :
    (buildPartition s).1 = .failed .equal :=
  partition_fails 32 (le_refl _) (sortedCodes s) { nodes := s.nodes, next := 0 } (by simpa using h2)
    (sortedCodes_fit s)
    (sortedCodes_sorted s) (sortedCodes_agree s) fun h => hd ((distinct_sortedCodes s).mp h)

/-! ### The tree as the decoder sees it -/

theorem closedWithin_succ {nodes : List (Nat × Node)} {n k : Nat} {i : Half} (h : closedWithin nodes n k i = true) :
    closedWithin nodes n (k + 1) i = true := by
  induction k generalizing i with
  | zero => simp [closedWithin] at h
  | succ k ih =>
    rw [closedWithin] at h ⊢
    rw [Bool.and_eq_true] at h ⊢
    refine ⟨h.1, ?_⟩
    have h2 := h.2
    cases hr : Memory.read nodes i.toNat with
    | none => rw [hr] at h2; exact h2
    | some d =>
      rw [hr] at h2
      simp only [Bool.and_eq_true, Bool.or_eq_true] at h2 ⊢
      exact ⟨h2.1.imp id ih, h2.2.imp id ih⟩

/-- What a closed node gives: it is written, and the slot that either bit selects is a leaf or a closed node. -/
theorem closedWithin_cases {nodes : List (Nat × Node)} {n k : Nat} {i : Half} (h : closedWithin nodes n k i = true) :
    ∃ k' d, k = k' + 1 ∧ i.toNat < n ∧ Memory.read nodes i.toNat = some d ∧
      ∀ b, (slotOf d b).1 = sent ∨ closedWithin nodes n k' (slotOf d b).1 = true := by
  cases k with
  | zero => cases h
  | succ k =>
    rw [closedWithin, Bool.and_eq_true, decide_eq_true_eq] at h
    cases hr : Memory.read nodes i.toNat with
    | none => rw [hr] at h; cases h.2
    | some d =>
      rw [hr] at h
      simp only [Bool.and_eq_true, Bool.or_eq_true, decide_eq_true_eq] at h
      exact ⟨k, d, rfl, h.1, rfl, fun b => by cases b; exact h.2.2; exact h.2.1⟩

/-- Every bit string from the root of a tree reaches a leaf (R145). -/
theorem TreeFor.closedWithin {nodes : List (Nat × Node)} {n k : Nat} {r : List Triple} {lo hi : Nat} {i : Half}
    (h : TreeFor nodes k r lo hi) (h2 : 2 ≤ r.length) (hn : hi ≤ n) (hi' : i.toNat = lo) :
    closedWithin nodes n k i = true := by
  induction k generalizing r lo hi i with
  | zero => exact h.elim
  | succ k ih =>
    have hhi := h.hi_eq
    rw [TreeFor] at h
    split at h
    · exact closedWithin_succ (ih h h2 hn hi')
    · next hd =>
      simp only [Bool.or_eq_true, List.isEmpty_iff, not_or] at hd
      have hz : 0 < (zeros r (31 - k)).length := List.length_pos_iff.mpr hd.1
      have ho : 0 < (ones r (31 - k)).length := List.length_pos_iff.mpr hd.2
      have hlen := length_zeros_add_ones r (31 - k)
      obtain ⟨d, mid, hd', hl, hr⟩ := h
      have h1 := hl.hi_eq fun _ _ _ _ h => h.hi_eq
      have h3 := hr.hi_eq fun _ _ _ _ h => h.hi_eq
      rw [Machine.closedWithin, Bool.and_eq_true, decide_eq_true_eq, hi', hd']
      refine ⟨by omega, ?_⟩
      simp only [Bool.and_eq_true, Bool.or_eq_true, decide_eq_true_eq]
      constructor
      · rcases hl with ⟨x, -, hs, -, -⟩ | ⟨h2, hidx, -, -, ht⟩
        · exact .inl hs
        · exact .inr (ih ht h2 (by omega) hidx)
      · rcases hr with ⟨x, -, hs, -, -⟩ | ⟨h2, hidx, -, -, ht⟩
        · exact .inl hs
        · exact .inr (ih ht h2 (by omega) hidx)

theorem SlotFor.filled {tree : List Triple → Nat → Nat → Prop} {r : List Triple} {idx val : Half} {lo hi n i : Nat}
    (h : SlotFor tree r idx val lo hi) (hs : ∀ x ∈ r, x.symbol.toNat ≤ n) (hi' : i < lo) (hn : lo < hi → hi ≤ n)
    (ht : ∀ r lo hi, tree r lo hi → hi + 1 = lo + r.length) : SlotFilled n i idx val := by
  rcases h with ⟨x, rfl, h1, rfl, -⟩ | ⟨h2, h1, -, h3, h4⟩
  · exact .inl ⟨h1, hs x (by simp)⟩
  · have := ht _ _ _ h4
    exact .inr ⟨by omega, by have := hn (by omega); omega, h3⟩

/-- Every node of a tree is written, with two filled slots (R137). -/
theorem TreeFor.filled {nodes : List (Nat × Node)} {n k : Nat} {r : List Triple} {lo hi : Nat}
    (h : TreeFor nodes k r lo hi) (h2 : 2 ≤ r.length) (hs : ∀ x ∈ r, x.symbol.toNat ≤ n) (hn : hi ≤ n) :
    ∀ i, lo ≤ i → i < hi → ∃ d, Memory.read nodes i = some d ∧
      SlotFilled n i d.lidx d.lval ∧ SlotFilled n i d.ridx d.rval := by
  induction k generalizing r lo hi with
  | zero => exact h.elim
  | succ k ih =>
    have hhi := h.hi_eq
    rw [TreeFor] at h
    split at h
    · exact ih h h2 hs hn
    · next hd =>
      simp only [Bool.or_eq_true, List.isEmpty_iff, not_or] at hd
      have hz : 0 < (zeros r (31 - k)).length := List.length_pos_iff.mpr hd.1
      have ho : 0 < (ones r (31 - k)).length := List.length_pos_iff.mpr hd.2
      have hlen := length_zeros_add_ones r (31 - k)
      obtain ⟨d, mid, hd', hl, hr⟩ := h
      have h1 := hl.hi_eq fun _ _ _ _ h => h.hi_eq
      have h3 := hr.hi_eq fun _ _ _ _ h => h.hi_eq
      have hsz : ∀ x ∈ zeros r (31 - k), x.symbol.toNat ≤ n := fun x hx => hs x ((zeros_sublist r _).subset hx)
      have hso : ∀ x ∈ ones r (31 - k), x.symbol.toNat ≤ n := fun x hx => hs x ((ones_sublist r _).subset hx)
      intro i hlo hhi'
      rcases Nat.lt_or_ge lo i with hi' | hi'
      · rcases Nat.lt_or_ge i mid with him | him
        · rcases hl with ⟨x, hx, -, -, hmid⟩ | ⟨h2, -, -, -, ht⟩
          · omega
          · exact ih ht h2 hsz (by omega) i (by omega) him
        · rcases hr with ⟨x, hx, -, -, hmid⟩ | ⟨h2, -, -, -, ht⟩
          · omega
          · exact ih ht h2 hso hn i him hhi'
      · have : i = lo := by omega
        subst this
        exact ⟨d, hd', hl.filled hsz (by omega) (by omega) fun _ _ _ h => h.hi_eq,
          hr.filled hso (by omega) (by omega) fun _ _ _ h => h.hi_eq⟩

/-- A stream code leads to its symbol (R146), within the levels that are left. -/
theorem TreeFor.leads {nodes : List (Nat × Node)} {k : Nat} (hk : k ≤ 32) {r : List Triple} {lo hi : Nat} {i : Half}
    (h : TreeFor nodes k r lo hi) (hi' : i.toNat = lo) (hs : CodeSorted r) (ha : Agree k r) {x : Triple} (hx : x ∈ r) :
    leads nodes (streamCode k r x.code) i = some x.symbol ∧ 1 ≤ (streamCode k r x.code).length ∧
      (streamCode k r x.code).length ≤ k := by
  induction k generalizing r lo hi i with
  | zero => exact h.elim
  | succ k ih =>
    have hlen := length_zeros_add_ones r (31 - k)
    rw [TreeFor] at h
    rw [streamCode]
    split at h
    · next hd =>
      rw [if_pos hd]
      have := ih (by omega) h hi' hs (agree_degenerate (by omega) hs ha hd) hx
      exact ⟨this.1, this.2.1, by omega⟩
    · next hd =>
      rw [if_neg hd]
      simp only [Bool.or_eq_true, List.isEmpty_iff, not_or] at hd
      obtain ⟨d, mid, hd', hl, hr⟩ := h
      rw [← hi'] at hd'
      have hmem : x ∈ zeros r (31 - k) ∨ x ∈ ones r (31 - k) := by
        rw [← List.mem_append, zeros_append_ones]; exact hx
      rcases hmem with hmem | hmem
      · rw [lvl_of_mem_zeros hmem, if_neg (by simp)]
        rcases hl with ⟨y, hy, h1, h2, -⟩ | ⟨h2, hidx, hns, -, ht⟩
        · rw [hy] at hmem
          rw [hy, List.mem_singleton.mp hmem]
          simp [Machine.leads, slotOf, nodeAt_of_read hd', h1, h2]
        · have := ih (by omega) ht hidx (hs.sublist (zeros_sublist r _)) (agree_zeros (by omega) ha) hmem
          rw [if_neg (by omega)]
          simp only [Machine.leads, slotOf, nodeAt_of_read hd', if_true, hns, if_false, List.length_cons]
          exact ⟨this.1, by omega, by omega⟩
      · rw [lvl_of_mem_ones (by omega) hs ha hmem, if_pos rfl]
        rcases hr with ⟨y, hy, h1, h2, -⟩ | ⟨h2, hidx, hns, -, ht⟩
        · rw [hy] at hmem
          rw [hy, List.mem_singleton.mp hmem]
          simp [Machine.leads, slotOf, nodeAt_of_read hd', h1, h2]
        · have := ih (by omega) ht hidx (hs.sublist (ones_sublist r _)) (agree_ones (by omega) hs ha) hmem
          rw [if_neg (by omega)]
          simp only [Machine.leads, slotOf, nodeAt_of_read hd', Bool.false_eq_true, hns, if_false, List.length_cons]
          exact ⟨this.1, by omega, by omega⟩

end Sys2Proof.Machine
end

