-- ==== Sys2Proof/Laws/Encoding.lean ====
section
/-! SUPPORT. The fields of a packed word, and a word packed from its fields (30_encoding.md R80). -/

namespace Sys2Proof

@[simp] theorem fieldOp_packWord (op : BitVec 4) (l : Byte) (x : Half) : fieldOp (packWord op l x) = op := by
  refine BitVec.eq_of_getLsbD_eq fun i hi => ?_
  simp only [fieldOp, packWord, BitVec.getLsbD_extractLsb', BitVec.getLsbD_append, hi, decide_true, Bool.true_and]
  rw [if_neg (by omega), if_neg (by omega), if_neg (by omega)]
  congr 1
  omega

@[simp] theorem fieldZ_packWord (op : BitVec 4) (l : Byte) (x : Half) : fieldZ (packWord op l x) = 0#4 := by
  refine BitVec.eq_of_getLsbD_eq fun i hi => ?_
  simp only [fieldZ, packWord, BitVec.getLsbD_extractLsb', BitVec.getLsbD_append, hi, decide_true, Bool.true_and]
  rw [if_neg (by omega), if_neg (by omega), if_pos (by omega)]
  simp

@[simp] theorem fieldL_packWord (op : BitVec 4) (l : Byte) (x : Half) : fieldL (packWord op l x) = l := by
  refine BitVec.eq_of_getLsbD_eq fun i hi => ?_
  simp only [fieldL, packWord, BitVec.getLsbD_extractLsb', BitVec.getLsbD_append, hi, decide_true, Bool.true_and]
  rw [if_neg (by omega), if_pos (by omega)]
  congr 1
  omega

@[simp] theorem fieldX_packWord (op : BitVec 4) (l : Byte) (x : Half) : fieldX (packWord op l x) = x := by
  refine BitVec.eq_of_getLsbD_eq fun i hi => ?_
  simp only [fieldX, packWord, BitVec.getLsbD_extractLsb', BitVec.getLsbD_append, hi, decide_true, Bool.true_and]
  rw [if_pos (by omega)]
  congr 1
  omega

/-- A word with Z = 0 is packed from its other fields. -/
theorem packWord_fields (w : Word) (hz : fieldZ w = 0#4) : packWord (fieldOp w) (fieldL w) (fieldX w) = w := by
  refine BitVec.eq_of_getLsbD_eq fun i hi => ?_
  simp only [fieldOp, fieldL, fieldX, packWord, BitVec.getLsbD_extractLsb', BitVec.getLsbD_append]
  split
  · next h => simp [h]
  · split
    · next h h' =>
      have : 16 + (i - 16) = i := by omega
      simp [h', this]
    · split
      · next h h' h'' =>
        have := congrArg (fun b => b.getLsbD (i - 16 - 8)) hz
        simp only [fieldZ, BitVec.getLsbD_extractLsb', h'', decide_true, Bool.true_and] at this
        have hi' : 24 + (i - 16 - 8) = i := by omega
        rw [hi'] at this
        rw [this]
      · next h h' h'' =>
        have h1 : 28 + (i - 16 - 8 - 4) = i := by omega
        have h2 : i - 16 - 8 - 4 < 4 := by omega
        simp [h1, h2]

theorem toNat_ofNat_of_xFits {x : Nat} (h : xFits x = true) : (BitVec.ofNat 16 x).toNat = x := by
  simp only [xFits, decide_eq_true_eq] at h
  simp [Nat.mod_eq_of_lt h]

theorem toNat_ofNat_of_lFits {l : Nat} (h : lFits l = true) : (BitVec.ofNat 8 l).toNat = l := by
  simp only [lFits, decide_eq_true_eq] at h
  simp [Nat.mod_eq_of_lt h]

theorem xFits_fieldX (w : Word) : xFits (fieldX w).toNat = true := by
  simp only [xFits, decide_eq_true_eq]
  exact (fieldX w).isLt

theorem lFits_fieldL (w : Word) : lFits (fieldL w).toNat = true := by
  simp only [lFits, decide_eq_true_eq]
  exact (fieldL w).isLt

/-- The OP field of a command's word is its opcode (R82), so accepting the word and running the command agree on LASTOP. -/
@[simp] theorem fieldOp_encode (i : Instr) : fieldOp (encode i) = opcode i := by
  cases i <;> simp [encode, opcode]

/-- What decodes has an OP below 8 and Z = 0. -/
theorem decodeWord_ok {w : Word} {i : Instr} (h : decodeWord w = .ok i) :
    (fieldOp w).toNat < 8 ∧ fieldZ w = 0#4 := by
  unfold decodeWord at h
  split at h
  · cases h
  · split at h
    · cases h
    · next h8 hz => exact ⟨by omega, by simpa using hz⟩

/-- A word that decodes has the OP of the command it decodes to: LASTOP is the same from either. -/
theorem fieldOp_of_decodeWord {w : Word} {i : Instr} (h : decodeWord w = .ok i) : fieldOp w = opcode i := by
  obtain ⟨h8, hz⟩ := decodeWord_ok h
  refine BitVec.eq_of_toNat_eq ?_
  unfold decodeWord at h
  rw [if_neg (by omega), if_neg (by simp [hz])] at h
  split at h <;> rename_i hop
  all_goals first
    | (rw [hop]; unfold plainCommand at h; split at h <;> cases h; rfl)
    | (rw [hop]; unfold indexCommand at h; split at h <;> cases h; rfl)
    | (rw [hop]; cases h; rfl)
    | cases h

end Sys2Proof
end

