-- ==== Sys2Proof/Laws/Exec.lean ====
section
/-! SUPPORT. What each command can do, said once: its outcomes, with the condition of each. -/

namespace Sys2Proof.Machine

variable (s : State)

theorem execNop_eq : execNop s = .next { s.accept 0x0#4 with overrun := false } := rfl

theorem execSetn_ok {n : Nat} (h : n ≤ s.cfg.nsymMax) :
    execSetn n s = .next { s.accept 0x1#4 with nsym := BitVec.ofNat 16 n } := by
  simp [execSetn, State.countOutOfRange, Nat.not_lt.mpr h]

theorem execSetn_index {n : Nat} (h : s.cfg.nsymMax < n) :
    execSetn n s = .next ((s.accept 0x1#4).raise .index) := by
  simp [execSetn, State.countOutOfRange, h]

theorem execLdlen_ok {i l : Nat} (h : i < s.cfg.nsymMax) :
    execLdlen i l s = .next ((s.accept 0x2#4).writeLen i (BitVec.ofNat 8 l)) := by
  simp [execLdlen, State.lenIndexOutOfRange, Nat.not_le.mpr h]

theorem execLdlen_index {i l : Nat} (h : s.cfg.nsymMax ≤ i) :
    execLdlen i l s = .next ((s.accept 0x2#4).raise .index) := by
  simp [execLdlen, State.lenIndexOutOfRange, h]

theorem execRdlen_ok {i : Nat} (h : i < s.cfg.nsymMax) :
    execRdlen i s = .next (((s.accept 0x3#4).afterReadLen i).setResult (zext16 (s.readLen i))) := by
  simp [execRdlen, State.lenIndexOutOfRange, Nat.not_le.mpr h]

theorem execRdlen_index {i : Nat} (h : s.cfg.nsymMax ≤ i) :
    execRdlen i s = .next ((s.accept 0x3#4).raise .index) := by
  simp [execRdlen, State.lenIndexOutOfRange, h]

theorem execDiscard_eq : execDiscard s = .next (s.accept 0x6#4).dropTree := rfl

theorem execBuild_ok (h2 : 2 ≤ s.nsym.toNat) (hmax : s.nsym.toNat ≤ s.cfg.nsymMax) :
    execBuild s = .next { (s.accept 0x4#4).dropTree with st := .building } := by
  simp [execBuild, State.contractViolated, Nat.not_lt.mpr h2, Nat.not_lt.mpr hmax]

theorem execBuild_contract (h : s.nsym.toNat < 2 ∨ s.cfg.nsymMax < s.nsym.toNat) :
    execBuild s = .next ((s.accept 0x4#4).dropTree.raise .contract) := by
  have : s.contractViolated = true := by simpa [State.contractViolated] using h
  simp [execBuild, this]

theorem execDecode_ok (h : s.treeValid = true) :
    execDecode s = .next { s.accept 0x5#4 with cur := 0, bitcnt := 0, st := .decoding } := by
  simp [execDecode, h]

theorem execDecode_notree (h : s.treeValid = false) :
    execDecode s = .next ((s.accept 0x5#4).raise .notree) := by
  simp [execDecode, h]

theorem execRdnode_ok {i : Nat} (h : s.treeValid = true) (hi : i < s.nnodes.toNat) :
    execRdnode i s = .next { s.accept 0x7#4 with
      nodeIdx := idxWord (nodeAt s.nodes i), nodeVal := valWord (nodeAt s.nodes i) } := by
  simp [execRdnode, h, State.nodeIndexOutOfRange, Nat.not_le.mpr hi]

theorem execRdnode_notree {i : Nat} (h : s.treeValid = false) :
    execRdnode i s = .next ((s.accept 0x7#4).raise .notree) := by
  simp [execRdnode, h]

theorem execRdnode_index {i : Nat} (h : s.treeValid = true) (hi : s.nnodes.toNat ≤ i) :
    execRdnode i s = .next ((s.accept 0x7#4).raise .index) := by
  simp [execRdnode, h, State.nodeIndexOutOfRange, hi]

/-- The outcomes of a command: what it can leave, and under which condition. -/
inductive ExecCase (s : State) : Instr → State → Prop where
  | nop : ExecCase s .nop { s.accept 0x0#4 with overrun := false }
  | setn {n} (h : n ≤ s.cfg.nsymMax) : ExecCase s (.setn n) { s.accept 0x1#4 with nsym := BitVec.ofNat 16 n }
  | setnIndex {n} (h : s.cfg.nsymMax < n) : ExecCase s (.setn n) ((s.accept 0x1#4).raise .index)
  | ldlen {i l} (h : i < s.cfg.nsymMax) :
      ExecCase s (.ldlen i l) ((s.accept 0x2#4).writeLen i (BitVec.ofNat 8 l))
  | ldlenIndex {i l} (h : s.cfg.nsymMax ≤ i) : ExecCase s (.ldlen i l) ((s.accept 0x2#4).raise .index)
  | rdlen {i} (h : i < s.cfg.nsymMax) :
      ExecCase s (.rdlen i) (((s.accept 0x3#4).afterReadLen i).setResult (zext16 (s.readLen i)))
  | rdlenIndex {i} (h : s.cfg.nsymMax ≤ i) : ExecCase s (.rdlen i) ((s.accept 0x3#4).raise .index)
  | build (h2 : 2 ≤ s.nsym.toNat) (hmax : s.nsym.toNat ≤ s.cfg.nsymMax) :
      ExecCase s .build { (s.accept 0x4#4).dropTree with st := .building }
  | buildContract (h : s.nsym.toNat < 2 ∨ s.cfg.nsymMax < s.nsym.toNat) :
      ExecCase s .build ((s.accept 0x4#4).dropTree.raise .contract)
  | decode (h : s.treeValid = true) :
      ExecCase s .decode { s.accept 0x5#4 with cur := 0, bitcnt := 0, st := .decoding }
  | decodeNotree (h : s.treeValid = false) : ExecCase s .decode ((s.accept 0x5#4).raise .notree)
  | discard : ExecCase s .discard (s.accept 0x6#4).dropTree
  | rdnode {i} (h : s.treeValid = true) (hi : i < s.nnodes.toNat) :
      ExecCase s (.rdnode i) { s.accept 0x7#4 with
        nodeIdx := idxWord (nodeAt s.nodes i), nodeVal := valWord (nodeAt s.nodes i) }
  | rdnodeNotree {i} (h : s.treeValid = false) : ExecCase s (.rdnode i) ((s.accept 0x7#4).raise .notree)
  | rdnodeIndex {i} (h : s.treeValid = true) (hi : s.nnodes.toNat ≤ i) :
      ExecCase s (.rdnode i) ((s.accept 0x7#4).raise .index)

/-- Every command answers a next state, and it is one of its outcomes. -/
theorem exec_case (i : Instr) : ∃ t, exec i s = .next t ∧ ExecCase s i t := by
  cases i with
  | nop => exact ⟨_, rfl, .nop⟩
  | setn n =>
    rcases Nat.lt_or_ge s.cfg.nsymMax n with h | h
    · exact ⟨_, execSetn_index s h, .setnIndex h⟩
    · exact ⟨_, execSetn_ok s h, .setn h⟩
  | ldlen i l =>
    rcases Nat.lt_or_ge i s.cfg.nsymMax with h | h
    · exact ⟨_, execLdlen_ok s h, .ldlen h⟩
    · exact ⟨_, execLdlen_index s h, .ldlenIndex h⟩
  | rdlen i =>
    rcases Nat.lt_or_ge i s.cfg.nsymMax with h | h
    · exact ⟨_, execRdlen_ok s h, .rdlen h⟩
    · exact ⟨_, execRdlen_index s h, .rdlenIndex h⟩
  | build =>
    by_cases h : s.nsym.toNat < 2 ∨ s.cfg.nsymMax < s.nsym.toNat
    · exact ⟨_, execBuild_contract s h, .buildContract h⟩
    · exact ⟨_, execBuild_ok s (by omega) (by omega), .build (by omega) (by omega)⟩
  | decode =>
    cases h : s.treeValid with
    | true => exact ⟨_, execDecode_ok s h, .decode h⟩
    | false => exact ⟨_, execDecode_notree s h, .decodeNotree h⟩
  | discard => exact ⟨_, rfl, .discard⟩
  | rdnode i =>
    cases h : s.treeValid with
    | false => exact ⟨_, execRdnode_notree s h, .rdnodeNotree h⟩
    | true =>
      rcases Nat.lt_or_ge i s.nnodes.toNat with hi | hi
      · exact ⟨_, execRdnode_ok s h hi, .rdnode h hi⟩
      · exact ⟨_, execRdnode_index s h hi, .rdnodeIndex h hi⟩

/-- Inversion: a next state of a command is one of its outcomes. -/
theorem exec_cases {i : Instr} {s t : State} (h : exec i s = .next t) : ExecCase s i t := by
  obtain ⟨t', ht, hc⟩ := exec_case s i
  rw [ht] at h
  cases h
  exact hc

end Sys2Proof.Machine
end

