-- ==== Sys2Proof/Laws/Kraft.lean ====
section
/-! SUPPORT. Code assignment when the lengths are in 1..32 (41_build.md R133, R143 (a)): the tracker is each entry's own
length, and while the Kraft sum stays within 2^32 no sum wraps, so the codes fall strictly along PAIRS. -/

namespace Sys2Proof.Machine

/-- PAIRS ascends in length (R132). -/
theorem sortedPairs_lengths (s : State) : s.sortedPairs.Pairwise fun a b => a.length.toNat ≤ b.length.toNat := by
  refine (sortedPairs_sorted (readPairs s.len s.nsym.toNat 0 s.draws).1).imp ?_
  intro a b h
  simp only [Pair.le, Bool.or_eq_true, Bool.and_eq_true, decide_eq_true_eq] at h
  omega

/-- PAIRS before its sort, when every entry read has been written. -/
theorem readPairs_lensWritten {s : State} (hw : LensWritten s) :
    (readPairs s.len s.nsym.toNat 0 s.draws).1 =
      (List.range s.nsym.toNat).map fun i => ⟨(Memory.read s.len i).getD 0, BitVec.ofNat 16 i⟩ := by
  rw [readPairs_written s.len s.nsym.toNat 0 s.draws fun j _ h => hw j (by omega), List.range_eq_range']

/-- The Kraft sum, taken along PAIRS. -/
theorem sortedPairs_kraftSum {s : State} (hw : LensWritten s) :
    (s.sortedPairs.map fun p => 2 ^ (32 - p.length.toNat)).sum = kraftSum s := by
  have hp := sortStable_perm Pair.le (readPairs s.len s.nsym.toNat 0 s.draws).1
  rw [State.sortedPairs, (hp.map fun p => 2 ^ (32 - p.length.toNat)).sum_eq, readPairs_lensWritten hw, List.map_map]
  rfl

theorem length_range_of_mem_sortedPairs {s : State} (hw : LensWritten s) (hr : LensInRange s) :
    ∀ p ∈ s.sortedPairs, 1 ≤ p.length.toNat ∧ p.length.toNat ≤ 32 := by
  intro p hp
  rw [State.sortedPairs, mem_sortStable, readPairs_lensWritten hw, List.mem_map] at hp
  obtain ⟨i, hi, rfl⟩ := hp
  exact hr i (List.mem_range.mp hi)

/-- The tracker at an entry that is no longer than the entries after it is that entry's length. -/
theorem lowered_eq {t l : Byte} (h : l.toNat ≤ t.toNat) : lowered t l = l := by
  unfold lowered
  split
  · rfl
  · exact BitVec.eq_of_toNat_eq (by omega)

/-- The walk along ascending lengths in 1..32 with a Kraft sum of at most 2^32: the tracker is the first length, the
accumulator the Kraft sum, and the codes fall strictly and stay below it. -/
theorem assignCodes_kraft (ps : List Pair) (h1 : ∀ p ∈ ps, 1 ≤ p.length.toNat ∧ p.length.toNat ≤ 32)
    (hs : ps.Pairwise fun a b => a.length.toNat ≤ b.length.toNat)
    (hk : (ps.map fun p => 2 ^ (32 - p.length.toNat)).sum ≤ 2 ^ 32) :
    (assignCodes ps).t.toNat = ((ps.head?.map fun p => p.length.toNat).getD 32) ∧
    (assignCodes ps).acc.toNat = (ps.map fun p => 2 ^ (32 - p.length.toNat)).sum % 2 ^ 32 ∧
    ((assignCodes ps).codes.Pairwise fun a b => b.code.toNat < a.code.toNat) ∧
    ∀ x ∈ (assignCodes ps).codes, x.code.toNat < (ps.map fun p => 2 ^ (32 - p.length.toNat)).sum := by
  induction ps with
  | nil => exact ⟨rfl, rfl, List.Pairwise.nil, by simp [assignCodes]⟩
  | cons p ps ih =>
    simp only [List.map_cons, List.sum_cons] at hk ⊢
    have hp := h1 p (by simp)
    have hpos : 1 ≤ 2 ^ (32 - p.length.toNat) := Nat.one_le_two_pow
    rw [List.pairwise_cons] at hs
    obtain ⟨i1, i2, i3, i4⟩ := ih (fun q hq => h1 q (by simp [hq])) hs.2 (by omega)
    have hl : lowered (assignCodes ps).t p.length = p.length := by
      refine lowered_eq ?_
      rw [i1]
      cases ps with
      | nil => simpa using hp.2
      | cons q ps => simpa using hs.1 q (by simp)
    have hacc : (assignCodes ps).acc.toNat = (ps.map fun p => 2 ^ (32 - p.length.toNat)).sum := by
      rw [i2, Nat.mod_eq_of_lt (by omega)]
    refine ⟨?_, ?_, ?_, ?_⟩
    · simp [assignCodes, Walk.visit, hl]
    · have hlt : 2 ^ (32 - p.length.toNat) < 2 ^ 32 := Nat.pow_lt_pow_right (by omega) (by omega)
      simp only [assignCodes, Walk.visit, hl, increment, BitVec.toNat_add, hacc, BitVec.toNat_ofNat]
      omega
    · simp only [assignCodes, Walk.visit, List.pairwise_cons]
      exact ⟨fun x hx => by rw [hacc]; exact i4 x hx, i3⟩
    · intro x hx
      simp only [assignCodes, Walk.visit, List.mem_cons] at hx
      rcases hx with rfl | hx
      · show (assignCodes ps).acc.toNat < _; omega
      · have := i4 x hx; omega

end Sys2Proof.Machine
end

