-- ==== Sys2Proof/Laws/PerInstr.lean ====
section
/-! SUPPORT. Statements made command by command: the shape of each command's word (30_encoding.md R80, R82). -/

namespace Sys2Proof.Laws.WordShape

open Sys2Proof

/-- The word of `i` has the OP of its row, Z = 0, and zero in the operand fields that its row does not have. -/
def Statement (i : Instr) : Prop :=
  fieldOp (encode i) = opcode i ∧ fieldZ (encode i) = 0#4 ∧
    match i with
    | .nop => fieldL (encode i) = 0#8 ∧ fieldX (encode i) = 0#16
    | .setn n => fieldL (encode i) = 0#8 ∧ fieldX (encode i) = BitVec.ofNat 16 n
    | .ldlen x l => fieldL (encode i) = BitVec.ofNat 8 l ∧ fieldX (encode i) = BitVec.ofNat 16 x
    | .rdlen x => fieldL (encode i) = 0#8 ∧ fieldX (encode i) = BitVec.ofNat 16 x
    | .build => fieldL (encode i) = 0#8 ∧ fieldX (encode i) = 0#16
    | .decode => fieldL (encode i) = 0#8 ∧ fieldX (encode i) = 0#16
    | .discard => fieldL (encode i) = 0#8 ∧ fieldX (encode i) = 0#16
    | .rdnode x => fieldL (encode i) = 0#8 ∧ fieldX (encode i) = BitVec.ofNat 16 x

theorem nop : Statement .nop := by simp [Statement, encode, opcode]
theorem setn (n : Nat) : Statement (.setn n) := by simp [Statement, encode, opcode]
theorem ldlen (index length : Nat) : Statement (.ldlen index length) := by simp [Statement, encode, opcode]
theorem rdlen (index : Nat) : Statement (.rdlen index) := by simp [Statement, encode, opcode]
theorem build : Statement .build := by simp [Statement, encode, opcode]
theorem decode : Statement .decode := by simp [Statement, encode, opcode]
theorem discard : Statement .discard := by simp [Statement, encode, opcode]
theorem rdnode (index : Nat) : Statement (.rdnode index) := by simp [Statement, encode, opcode]

end Sys2Proof.Laws.WordShape
end

