-- ==== Sys2Proof/Laws/Traverse.lean ====
section
/-! SUPPORT. What DECODE's traversal step can do, said once (42_decode.md R182, R184; 70_reset_and_hazards.md R267). -/

namespace Sys2Proof.Machine

/-- The outcomes of a traversal step. -/
inductive TraverseCase (s : State) : State → Prop where
  /-- The bit selects a leaf: DECODE ends with its symbol. -/
  | leaf (b : Bool) (ha : s.source.answer = .bit b) (hs : (slotOf (nodeAt s.nodes s.cur.toNat) b).1 = sent) :
      TraverseCase s { s with
        source := s.source.advance, bitcnt := s.bitcnt + 1, rval := (slotOf (nodeAt s.nodes s.cur.toNat) b).2,
        resultValid := true, st := .idle }
  /-- The bit selects a node: CUR moves there. -/
  | child (b : Bool) (ha : s.source.answer = .bit b) (hs : (slotOf (nodeAt s.nodes s.cur.toNat) b).1 ≠ sent) :
      TraverseCase s { s with
        source := s.source.advance, bitcnt := s.bitcnt + 1, cur := (slotOf (nodeAt s.nodes s.cur.toNat) b).1 }
  /-- The stream is exhausted: TRUNC. -/
  | eos (ha : s.source.answer = .eos) : TraverseCase s { s with err := .trunc, st := .idle }
  /-- The source does not answer: nothing changes. -/
  | pending (ha : s.source.answer = .pending) : TraverseCase s s

theorem traverse_leaf {s : State} {b : Bool} (ha : s.source.answer = .bit b)
    (hs : (slotOf (nodeAt s.nodes s.cur.toNat) b).1 = sent) :
    s.traverse = { s with
      source := s.source.advance, bitcnt := s.bitcnt + 1, rval := (slotOf (nodeAt s.nodes s.cur.toNat) b).2,
      resultValid := true, st := .idle } := by
  simp only [State.traverse, ha, State.takeBit, if_pos hs]
  rfl

theorem traverse_child {s : State} {b : Bool} (ha : s.source.answer = .bit b)
    (hs : (slotOf (nodeAt s.nodes s.cur.toNat) b).1 ≠ sent) :
    s.traverse = { s with
      source := s.source.advance, bitcnt := s.bitcnt + 1, cur := (slotOf (nodeAt s.nodes s.cur.toNat) b).1 } := by
  simp only [State.traverse, ha, State.takeBit, if_neg hs]

theorem traverse_eos {s : State} (ha : s.source.answer = .eos) :
    s.traverse = { s with err := .trunc, st := .idle } := by
  simp only [State.traverse, ha]
  rfl

theorem traverse_pending {s : State} (ha : s.source.answer = .pending) : s.traverse = s := by
  simp only [State.traverse, ha]

theorem traverse_case (s : State) : TraverseCase s s.traverse := by
  cases ha : s.source.answer with
  | eos => rw [traverse_eos ha]; exact .eos ha
  | pending => have := TraverseCase.pending ha; rwa [traverse_pending ha]
  | bit b =>
    by_cases hs : (slotOf (nodeAt s.nodes s.cur.toNat) b).1 = sent
    · rw [traverse_leaf ha hs]; exact .leaf b ha hs
    · rw [traverse_child ha hs]; exact .child b ha hs

/-- What a traversal step may change. -/
theorem traverse_frame (s : State) : s.traverse = { s with
    st := s.traverse.st, resultValid := s.traverse.resultValid, err := s.traverse.err, rval := s.traverse.rval,
    bitcnt := s.traverse.bitcnt, cur := s.traverse.cur, source := s.traverse.source } := by
  generalize ht : s.traverse = t
  have h := traverse_case s
  rw [ht] at h
  cases h <;> rfl

/-! ### The bit source (R183) -/

theorem answer_of_bits {b : BitSource} {v : Bool} (h : b.bits[b.pos]? = some v) : b.answer = .bit v := by
  simp [BitSource.answer, h]

theorem answer_eos {b : BitSource} (h : b.bits.length ≤ b.pos) (ht : b.tail = .eos) : b.answer = .eos := by
  simp only [BitSource.answer, List.getElem?_eq_none h, ht]

theorem answer_endless {b : BitSource} (h : b.bits.length ≤ b.pos) (ht : b.tail = .endless) :
    b.answer = .bit (Config.streamBit b.pos) := by
  simp only [BitSource.answer, List.getElem?_eq_none h, ht]

theorem answer_silent {b : BitSource} (h : b.bits.length ≤ b.pos) (ht : b.tail = .silent) : b.answer = .pending := by
  simp only [BitSource.answer, List.getElem?_eq_none h, ht]

/-- A source whose tail is not silent answers every request (70_reset_and_hazards.md R267). -/
theorem answer_ne_pending {b : BitSource} (h : b.tail ≠ .silent) : b.answer ≠ .pending := by
  unfold BitSource.answer
  split
  · simp
  · split <;> simp_all

@[simp] theorem advance_tail (b : BitSource) : b.advance.tail = b.tail := rfl
@[simp] theorem advance_pos (b : BitSource) : b.advance.pos = b.pos + 1 := rfl
@[simp] theorem advance_bits (b : BitSource) : b.advance.bits = b.bits := rfl

/-- The bit that a source delivers next is the head of what is left of the stream. -/
theorem answer_of_drop {b : BitSource} {v : Bool} {more : List Bool} (h : b.bits.drop b.pos = v :: more) :
    b.answer = .bit v ∧ b.advance.bits.drop b.advance.pos = more := by
  have h0 : b.bits[b.pos]? = some v := by
    have := congrArg (fun l => l[0]?) h
    simpa using this
  refine ⟨answer_of_bits h0, ?_⟩
  have := congrArg (List.drop 1) h
  simpa [BitSource.advance, List.drop_drop, Nat.add_comm] using this

end Sys2Proof.Machine
end

