-- ==== Sys2Proof/Laws/Step.lean ====
section
/-! SUPPORT. What a step can do, said once: how it goes on from each kind of next move, and the inversion that every
invariant is proved from. -/

namespace Sys2Proof.Machine

/-! ### Register addresses (20_memory.md R61, R62) -/

theorem registerAt_base (c : Config) : registerAt c c.htbBase 4 = some .cmd := by
  simp [registerAt, HostReg.ofIndex]

theorem registerAt_index (c : Config) {k : Nat} (h : k < 16) :
    registerAt c (c.htbBase + 4 * k) 4 = some (HostReg.ofIndex k) := by
  have h1 : c.htbBase + 4 * k - c.htbBase = 4 * k := by omega
  have h2 : 4 * k / 4 = k := by omega
  rw [registerAt, if_pos ⟨rfl, by omega, by omega, by omega⟩, h1, h2]

theorem ofIndex_eq_cmd {k : Nat} (h : HostReg.ofIndex k = .cmd) : k = 0 := by
  unfold HostReg.ofIndex at h
  split at h <;> first | rfl | cases h

/-- Only one aligned word access of the window reaches a register. -/
theorem registerAt_some {c : Config} {addr size : Nat} {r : HostReg} (h : registerAt c addr size = some r) :
    size = 4 ∧ ∃ k < 16, addr = c.htbBase + 4 * k ∧ r = HostReg.ofIndex k := by
  unfold registerAt at h
  split at h
  · next hc =>
    obtain ⟨h1, h2, h3, h4⟩ := hc
    exact ⟨h1, _, h4, by omega, by simpa using h.symm⟩
  · simp at h

theorem registerAt_cmd {c : Config} {addr size : Nat} (h : registerAt c addr size = some .cmd) :
    addr = c.htbBase ∧ size = 4 := by
  obtain ⟨h1, k, -, h2, h3⟩ := registerAt_some h
  have := ofIndex_eq_cmd h3.symm
  exact ⟨by omega, h1⟩

/-! ### How a step goes on -/

theorem step_hostNext {s rest : State} {op : HostOp} (h : HostNext s op rest) : step s = runHostOp op rest := by
  obtain ⟨ops, ho, ⟨ts, ht, rfl⟩ | ⟨ht, hb, rfl⟩⟩ := h
  · simp only [step, ht, takeTurn, hostMove, ho]
  · simp only [step, ht, defaultMove, hb, ho, hostMove]
    rfl

theorem step_writesCommand {s rest : State} {w : Word} (h : WritesCommand s w rest) :
    step s = writeCommand w rest := by
  have hc : rest.cfg = s.cfg := by
    obtain ⟨ops, -, ⟨ts, -, rfl⟩ | ⟨-, -, rfl⟩⟩ := h <;> rfl
  rw [step_hostNext h, ← hc]
  simp only [runHostOp, registerAt_base, writeRegister]

theorem step_blockNext {s rest : State} (h : BlockNext s rest) : step s = .next rest.blockMove := by
  obtain ⟨hb, ⟨ts, ht, rfl⟩ | ⟨ht, rfl⟩⟩ := h
  · simp only [step, ht, takeTurn]
  · simp only [step, ht, defaultMove, hb, if_true]

theorem step_resetNext {s : State} {ts : List Turn} (h : s.turns = .reset :: ts) :
    step s = .next ({ s with turns := ts } : State).resetInput := by
  simp only [step, h, takeTurn]

/-- The completion step, as a step of the machine. -/
theorem step_building {s rest : State} (h : BlockNext s rest) (hs : s.st = .building) :
    step s = .next rest.buildComplete := by
  have h1 : rest.st = .building := by obtain ⟨-, ⟨ts, -, rfl⟩ | ⟨-, rfl⟩⟩ := h <;> exact hs
  rw [step_blockNext h]
  simp only [State.blockMove, h1]

/-- The traversal step, as a step of the machine. -/
theorem step_decoding {s rest : State} (h : BlockNext s rest) (hs : s.st = .decoding) :
    step s = .next rest.traverse := by
  have h1 : rest.st = .decoding := by obtain ⟨-, ⟨ts, -, rfl⟩ | ⟨-, rfl⟩⟩ := h <;> exact hs
  rw [step_blockNext h]
  simp only [State.blockMove, h1]

theorem core_run_succ {s t : Sys2Proof.core.State} (h : Sys2Proof.core.step s = .next t) (n : Nat) :
    Sys2Proof.core.run (n + 1) s = Sys2Proof.core.run n t := by simp only [Host.Core.run, h]

/-- A run of one step more begins with that step. -/
theorem run_succ {s t : State} (h : step s = .next t) (n : Nat) :
    Sys2Proof.core.run (n + 1) s = Sys2Proof.core.run n t := core_run_succ h n

/-- The turn and the operation that a step takes off touch nothing else. -/
theorem HostNext.rest_eq {s rest : State} {op : HostOp} (h : HostNext s op rest) :
    rest = { s with turns := rest.turns, host := rest.host } := by
  obtain ⟨ops, -, ⟨ts, -, rfl⟩ | ⟨-, -, rfl⟩⟩ := h <;> rfl

theorem BlockNext.rest_eq {s rest : State} (h : BlockNext s rest) : rest = { s with turns := rest.turns } := by
  obtain ⟨-, ⟨ts, -, rfl⟩ | ⟨-, rfl⟩⟩ := h <;> rfl

/-! The fields that a step's taking off leaves, one by one. -/

theorem HostNext.cfg_eq {s rest : State} {op : HostOp} (h : HostNext s op rest) : rest.cfg = s.cfg := by rw [h.rest_eq]
theorem HostNext.st_eq {s rest : State} {op : HostOp} (h : HostNext s op rest) : rest.st = s.st := by rw [h.rest_eq]
theorem HostNext.treeValid_eq {s rest : State} {op : HostOp} (h : HostNext s op rest) : rest.treeValid = s.treeValid := by rw [h.rest_eq]
theorem HostNext.resultValid_eq {s rest : State} {op : HostOp} (h : HostNext s op rest) : rest.resultValid = s.resultValid := by rw [h.rest_eq]
theorem HostNext.overrun_eq {s rest : State} {op : HostOp} (h : HostNext s op rest) : rest.overrun = s.overrun := by rw [h.rest_eq]
theorem HostNext.err_eq {s rest : State} {op : HostOp} (h : HostNext s op rest) : rest.err = s.err := by rw [h.rest_eq]
theorem HostNext.lastop_eq {s rest : State} {op : HostOp} (h : HostNext s op rest) : rest.lastop = s.lastop := by rw [h.rest_eq]
theorem HostNext.rval_eq {s rest : State} {op : HostOp} (h : HostNext s op rest) : rest.rval = s.rval := by rw [h.rest_eq]
theorem HostNext.nsym_eq {s rest : State} {op : HostOp} (h : HostNext s op rest) : rest.nsym = s.nsym := by rw [h.rest_eq]
theorem HostNext.nnodes_eq {s rest : State} {op : HostOp} (h : HostNext s op rest) : rest.nnodes = s.nnodes := by rw [h.rest_eq]
theorem HostNext.bitcnt_eq {s rest : State} {op : HostOp} (h : HostNext s op rest) : rest.bitcnt = s.bitcnt := by rw [h.rest_eq]
theorem HostNext.nodeIdx_eq {s rest : State} {op : HostOp} (h : HostNext s op rest) : rest.nodeIdx = s.nodeIdx := by rw [h.rest_eq]
theorem HostNext.nodeVal_eq {s rest : State} {op : HostOp} (h : HostNext s op rest) : rest.nodeVal = s.nodeVal := by rw [h.rest_eq]
theorem HostNext.len_eq {s rest : State} {op : HostOp} (h : HostNext s op rest) : rest.len = s.len := by rw [h.rest_eq]
theorem HostNext.nodes_eq {s rest : State} {op : HostOp} (h : HostNext s op rest) : rest.nodes = s.nodes := by rw [h.rest_eq]
theorem HostNext.nextNode_eq {s rest : State} {op : HostOp} (h : HostNext s op rest) : rest.nextNode = s.nextNode := by rw [h.rest_eq]
theorem HostNext.pairs_eq {s rest : State} {op : HostOp} (h : HostNext s op rest) : rest.pairs = s.pairs := by rw [h.rest_eq]
theorem HostNext.codes_eq {s rest : State} {op : HostOp} (h : HostNext s op rest) : rest.codes = s.codes := by rw [h.rest_eq]
theorem HostNext.cur_eq {s rest : State} {op : HostOp} (h : HostNext s op rest) : rest.cur = s.cur := by rw [h.rest_eq]
theorem HostNext.source_eq {s rest : State} {op : HostOp} (h : HostNext s op rest) : rest.source = s.source := by rw [h.rest_eq]
theorem HostNext.hostReads_eq {s rest : State} {op : HostOp} (h : HostNext s op rest) : rest.hostReads = s.hostReads := by rw [h.rest_eq]
theorem HostNext.draws_eq {s rest : State} {op : HostOp} (h : HostNext s op rest) : rest.draws = s.draws := by rw [h.rest_eq]
theorem BlockNext.cfg_eq {s rest : State} (h : BlockNext s rest) : rest.cfg = s.cfg := by rw [h.rest_eq]
theorem BlockNext.st_eq {s rest : State} (h : BlockNext s rest) : rest.st = s.st := by rw [h.rest_eq]
theorem BlockNext.treeValid_eq {s rest : State} (h : BlockNext s rest) : rest.treeValid = s.treeValid := by rw [h.rest_eq]
theorem BlockNext.resultValid_eq {s rest : State} (h : BlockNext s rest) : rest.resultValid = s.resultValid := by rw [h.rest_eq]
theorem BlockNext.overrun_eq {s rest : State} (h : BlockNext s rest) : rest.overrun = s.overrun := by rw [h.rest_eq]
theorem BlockNext.err_eq {s rest : State} (h : BlockNext s rest) : rest.err = s.err := by rw [h.rest_eq]
theorem BlockNext.lastop_eq {s rest : State} (h : BlockNext s rest) : rest.lastop = s.lastop := by rw [h.rest_eq]
theorem BlockNext.rval_eq {s rest : State} (h : BlockNext s rest) : rest.rval = s.rval := by rw [h.rest_eq]
theorem BlockNext.nsym_eq {s rest : State} (h : BlockNext s rest) : rest.nsym = s.nsym := by rw [h.rest_eq]
theorem BlockNext.nnodes_eq {s rest : State} (h : BlockNext s rest) : rest.nnodes = s.nnodes := by rw [h.rest_eq]
theorem BlockNext.bitcnt_eq {s rest : State} (h : BlockNext s rest) : rest.bitcnt = s.bitcnt := by rw [h.rest_eq]
theorem BlockNext.nodeIdx_eq {s rest : State} (h : BlockNext s rest) : rest.nodeIdx = s.nodeIdx := by rw [h.rest_eq]
theorem BlockNext.nodeVal_eq {s rest : State} (h : BlockNext s rest) : rest.nodeVal = s.nodeVal := by rw [h.rest_eq]
theorem BlockNext.len_eq {s rest : State} (h : BlockNext s rest) : rest.len = s.len := by rw [h.rest_eq]
theorem BlockNext.nodes_eq {s rest : State} (h : BlockNext s rest) : rest.nodes = s.nodes := by rw [h.rest_eq]
theorem BlockNext.nextNode_eq {s rest : State} (h : BlockNext s rest) : rest.nextNode = s.nextNode := by rw [h.rest_eq]
theorem BlockNext.pairs_eq {s rest : State} (h : BlockNext s rest) : rest.pairs = s.pairs := by rw [h.rest_eq]
theorem BlockNext.codes_eq {s rest : State} (h : BlockNext s rest) : rest.codes = s.codes := by rw [h.rest_eq]
theorem BlockNext.cur_eq {s rest : State} (h : BlockNext s rest) : rest.cur = s.cur := by rw [h.rest_eq]
theorem BlockNext.source_eq {s rest : State} (h : BlockNext s rest) : rest.source = s.source := by rw [h.rest_eq]
theorem BlockNext.host_eq {s rest : State} (h : BlockNext s rest) : rest.host = s.host := by rw [h.rest_eq]
theorem BlockNext.hostReads_eq {s rest : State} (h : BlockNext s rest) : rest.hostReads = s.hostReads := by rw [h.rest_eq]
theorem BlockNext.draws_eq {s rest : State} (h : BlockNext s rest) : rest.draws = s.draws := by rw [h.rest_eq]

/-- What a traversal step of the machine may change. -/
theorem BlockNext.traverse_frame {s rest : State} (h : BlockNext s rest) :
    rest.traverse = { s with
      turns := rest.turns, st := rest.traverse.st, resultValid := rest.traverse.resultValid, err := rest.traverse.err,
      rval := rest.traverse.rval, bitcnt := rest.traverse.bitcnt, cur := rest.traverse.cur,
      source := rest.traverse.source } := by
  have h1 := Machine.traverse_frame rest
  have h2 := h.rest_eq
  generalize rest.traverse = t at *
  generalize rest.turns = ts at *
  subst h2
  exact h1

/-- What a completion step of the machine may change. -/
theorem BlockNext.buildComplete_frame {s rest : State} (h : BlockNext s rest) :
    rest.buildComplete = { s with
      turns := rest.turns, st := rest.buildComplete.st, err := rest.buildComplete.err,
      treeValid := rest.buildComplete.treeValid, nnodes := rest.buildComplete.nnodes,
      nodes := rest.buildComplete.nodes, nextNode := rest.buildComplete.nextNode,
      draws := rest.buildComplete.draws, pairs := [], codes := [] } := by
  have h1 := Machine.buildComplete_frame rest
  have h2 := h.rest_eq
  generalize rest.buildComplete = t at *
  generalize rest.turns = ts at *
  subst h2
  exact h1

/-! ### The presentation of a command word, by the control state (60_exceptions.md R225) -/

theorem writeCommand_halted {w : Word} {s : State} (h : s.st = .halted) : writeCommand w s = .next s := by
  unfold writeCommand
  split <;> rename_i hs <;> first | rfl | (rw [h] at hs; cases hs)

theorem writeCommand_busy {w : Word} {s : State} (h : s.st = .building ∨ s.st = .decoding) :
    writeCommand w s = .next { s with overrun := true } := by
  unfold writeCommand
  split <;> rename_i hs <;> first | rfl | (rw [hs] at h; rcases h with h | h <;> cases h)

theorem writeCommand_illegal {w : Word} {s : State} {e : Illegal} (h : s.st = .idle) (hd : decodeWord w = .error e) :
    writeCommand w s = .next (s.illegal (fieldOp w)) := by
  unfold writeCommand
  split <;> rename_i hs <;> first | (rw [h] at hs; cases hs; done) | simp only [hd]

theorem writeCommand_ok {w : Word} {s : State} {i : Instr} (h : s.st = .idle) (hd : decodeWord w = .ok i) :
    writeCommand w s = exec i s := by
  unfold writeCommand
  split <;> rename_i hs <;> first | (rw [h] at hs; cases hs; done) | simp only [hd]

/-! ### Inversion -/

/-- A next state of the presentation of a command word (60_exceptions.md R225). -/
theorem writeCommand_cases {w : Word} {s t : State} (h : writeCommand w s = .next t) :
    (s.st = .halted ∧ t = s) ∨
      ((s.st = .building ∨ s.st = .decoding) ∧ t = { s with overrun := true }) ∨
      (s.st = .idle ∧ (∃ e, decodeWord w = .error e) ∧ t = s.illegal (fieldOp w)) ∨
      (s.st = .idle ∧ ∃ i, decodeWord w = .ok i ∧ ExecCase s i t) := by
  unfold writeCommand at h
  cases hst : s.st with
  | halted => rw [hst] at h; cases h; exact .inl ⟨rfl, rfl⟩
  | building => rw [hst] at h; cases h; exact .inr (.inl ⟨.inl rfl, rfl⟩)
  | decoding => rw [hst] at h; cases h; exact .inr (.inl ⟨.inr rfl, rfl⟩)
  | idle =>
    rw [hst] at h
    cases hd : decodeWord w with
    | ok i => rw [hd] at h; exact .inr (.inr (.inr ⟨rfl, i, rfl, exec_cases h⟩))
    | error e => rw [hd] at h; cases h; exact .inr (.inr (.inl ⟨rfl, ⟨e, rfl⟩, rfl⟩))

/-- A next state of a host operation: a read or a poll, an ignored write, or the presentation of a command word. -/
theorem runHostOp_cases {op : HostOp} {s t : State} (h : runHostOp op s = .next t) :
    (∃ v, t = s.hostGets v) ∨
      (op = .wait ∧ t = { s.hostGets s.statusWord with host := .wait :: s.host }) ∨ t = s ∨
      (∃ w, op = .memWrite s.cfg.htbBase 4 w ∧ writeCommand w s = .next t) := by
  cases op with
  | memRead addr size =>
    simp only [runHostOp] at h
    split at h
    · cases h; exact .inl ⟨_, rfl⟩
    · cases h
  | memWrite addr size v =>
    simp only [runHostOp] at h
    split at h
    · next r hr =>
      by_cases hc : r = .cmd
      · subst hc
        obtain ⟨rfl, rfl⟩ := registerAt_cmd hr
        exact .inr (.inr (.inr ⟨v, rfl, h⟩))
      · have : writeRegister r v s = .next s := by cases r <;> first | rfl | exact absurd rfl hc
        rw [this] at h
        cases h
        exact .inr (.inr (.inl rfl))
    · cases h
  | wait =>
    simp only [runHostOp] at h
    split at h
    · cases h; exact .inr (.inl ⟨rfl, rfl⟩)
    · cases h; exact .inl ⟨_, rfl⟩

/-- Everything that one step can do. -/
inductive StepCase (s : State) : State → Prop where
  /-- The reset input (70_reset_and_hazards.md R261). -/
  | reset {ts} (h : s.turns = .reset :: ts) : StepCase s ({ s with turns := ts } : State).resetInput
  /-- The completion step of BUILD (41_build.md R141). -/
  | complete {rest} (h : BlockNext s rest) (hst : s.st = .building) : StepCase s rest.buildComplete
  /-- A traversal step of DECODE (42_decode.md R182). -/
  | traverse {rest} (h : BlockNext s rest) (hst : s.st = .decoding) : StepCase s rest.traverse
  /-- A host read (20_memory.md R63). -/
  | read {op rest} (h : HostNext s op rest) (v : Word) : StepCase s (rest.hostGets v)
  /-- A poll that goes on (30_encoding.md R88). -/
  | poll {rest} (h : HostNext s .wait rest) :
      StepCase s { rest.hostGets rest.statusWord with host := .wait :: rest.host }
  /-- A host write that is ignored or dropped (20_memory.md R61, 60_exceptions.md R222). -/
  | ignored {op rest} (h : HostNext s op rest) : StepCase s rest
  /-- A command word dropped while BUSY = 1 (60_exceptions.md R223). -/
  | overrun {w rest} (h : WritesCommand s w rest) (hst : s.st = .building ∨ s.st = .decoding) :
      StepCase s { rest with overrun := true }
  /-- An accepted word that is no command (30_encoding.md R83, R84). -/
  | illegal {w e rest} (h : WritesCommand s w rest) (hst : s.st = .idle) (hd : decodeWord w = .error e) :
      StepCase s (rest.illegal (fieldOp w))
  /-- An accepted command (60_exceptions.md R224). -/
  | command {w i rest t} (h : WritesCommand s w rest) (hst : s.st = .idle) (hd : decodeWord w = .ok i)
      (he : ExecCase rest i t) : StepCase s t
  /-- A turn of an agent that has nothing to do (60_exceptions.md R235). -/
  | nothing (ts : List Turn) : StepCase s { s with turns := ts }

theorem HostNext.case {s rest t : State} {op : HostOp} (h : HostNext s op rest) (ht : step s = .next t) :
    StepCase s t := by
  have hst : rest.st = s.st ∧ rest.cfg = s.cfg := by rw [h.rest_eq]; exact ⟨rfl, rfl⟩
  rw [step_hostNext h] at ht
  rcases runHostOp_cases ht with ⟨v, rfl⟩ | ⟨rfl, rfl⟩ | rfl | ⟨w, rfl, hw⟩
  · exact .read h v
  · exact .poll h
  · exact .ignored h
  · rw [hst.2] at h
    rcases writeCommand_cases hw with ⟨-, rfl⟩ | ⟨hb, rfl⟩ | ⟨hi, ⟨e, he⟩, rfl⟩ | ⟨hi, i, hd, he⟩
    · exact .ignored h
    · exact .overrun h (by rwa [hst.1] at hb)
    · exact .illegal h (by rwa [hst.1] at hi) he
    · exact .command h (by rwa [hst.1] at hi) hd he

theorem BlockNext.case {s rest t : State} (h : BlockNext s rest) (ht : step s = .next t) : StepCase s t := by
  have hst : rest.st = s.st := by rw [h.rest_eq]
  rw [step_blockNext h] at ht
  have hb := h.1
  cases hs : s.st with
  | idle => rw [hs] at hb; cases hb
  | halted => rw [hs] at hb; cases hb
  | building => rw [hs] at hst; simp only [State.blockMove, hst] at ht; cases ht; exact .complete h hs
  | decoding => rw [hs] at hst; simp only [State.blockMove, hst] at ht; cases ht; exact .traverse h hs

/-- Inversion: a next state of a step is one of the cases. -/
theorem step_cases {s t : State} (h : step s = .next t) : StepCase s t := by
  cases ht : s.turns with
  | cons turn ts =>
    cases turn with
    | reset => rw [step_resetNext ht] at h; cases h; exact .reset ht
    | host =>
      cases ho : s.host with
      | nil =>
        have hm : hostMove { s with turns := ts } = .next { s with turns := ts } := by
          unfold hostMove
          rw [show ({ s with turns := ts } : State).host = [] from ho]
        simp only [step, ht, takeTurn, hm] at h
        cases h
        exact .nothing ts
      | cons op ops => exact HostNext.case ⟨ops, ho, .inl ⟨ts, ht, rfl⟩⟩ h
    | block =>
      cases hb : s.st.busy with
      | true => exact BlockNext.case ⟨hb, .inl ⟨ts, ht, rfl⟩⟩ h
      | false =>
        simp only [step, ht, takeTurn] at h
        cases h
        have hm : State.blockMove { s with turns := ts } = { s with turns := ts } := by
          unfold State.blockMove
          cases hs : s.st with
          | idle => rfl
          | halted => rfl
          | building => rw [hs] at hb; cases hb
          | decoding => rw [hs] at hb; cases hb
        rw [hm]
        exact .nothing ts
  | nil =>
    cases hb : s.st.busy with
    | true => exact BlockNext.case ⟨hb, .inr ⟨ht, rfl⟩⟩ h
    | false =>
      cases ho : s.host with
      | cons op ops => exact HostNext.case ⟨ops, ho, .inr ⟨ht, hb, rfl⟩⟩ h
      | nil =>
        have hs : step s = if s.st.isHalted then .fault .halted else .next s := by
          simp only [step, ht, defaultMove, hb, ho]
          rfl
        rw [hs] at h
        split at h
        · cases h
        · cases h
          have := StepCase.nothing (s := s) s.turns
          exact this

end Sys2Proof.Machine
end

