-- ==== Sys2Proof/Laws/Tiling.lean ====
section
/-! SUPPORT. Codes whose dyadic intervals tile a block: their stream codes are the complements of their levels (41_build.md
R147). -/

namespace Sys2Proof.Machine

/-- The size of an entry's dyadic interval: `2^(32 - clen)`. -/
def sz (x : Triple) : Nat := 2 ^ (32 - x.clen.toNat)

/-- The entries' intervals, each aligned to its size, follow one another without a gap from `a` to `b`. -/
def Tiles : Nat → List Triple → Nat → Prop
  | a, [], b => a = b
  | a, x :: r, b => x.code.toNat = a ∧ 1 ≤ x.clen.toNat ∧ x.clen.toNat ≤ 32 ∧ sz x ∣ a ∧ Tiles (a + sz x) r b

theorem Tiles.le {a b : Nat} {r : List Triple} (h : Tiles a r b) : a ≤ b := by
  induction r generalizing a with
  | nil => exact le_of_eq h
  | cons x r ih => have := ih h.2.2.2.2; omega

theorem sz_pos (x : Triple) : 1 ≤ sz x := Nat.one_le_two_pow

theorem Tiles.mem {a b : Nat} {r : List Triple} (h : Tiles a r b) {x} (hx : x ∈ r) :
    a ≤ x.code.toNat ∧ x.code.toNat + sz x ≤ b := by
  induction r generalizing a with
  | nil => cases hx
  | cons y r ih =>
    rcases List.mem_cons.mp hx with rfl | hx
    · exact ⟨h.1.ge, by rw [h.1]; exact h.2.2.2.2.le⟩
    · have := ih h.2.2.2.2 hx
      have := sz_pos y
      omega

theorem Tiles.sorted {a b : Nat} {r : List Triple} (h : Tiles a r b) : CodeSorted r := by
  induction r generalizing a with
  | nil => exact List.Pairwise.nil
  | cons y r ih =>
    refine List.Pairwise.cons (fun x hx => ?_) (ih h.2.2.2.2)
    have := h.2.2.2.2.mem hx
    have := h.1
    omega

/-- Inside an aligned block of size `2^(k+1)` the level of weight `2^k` tells the halves apart. -/
theorem lvl_div {c : Word} {k A : Nat} (hk : k < 32) (hA : 2 ^ (k + 1) ∣ A) (h1 : A ≤ c.toNat)
    (h2 : c.toNat < A + 2 ^ (k + 1)) :
    lvl c (31 - k) = decide (A + 2 ^ k ≤ c.toNat) := by
  rw [lvl_eq_testBit, show 31 - (31 - k) = k by omega, Nat.testBit_eq_decide_div_mod_eq]
  congr 1
  obtain ⟨q, rfl⟩ := hA
  have hp : 0 < 2 ^ k := Nat.two_pow_pos k
  rw [Nat.pow_succ] at h1 h2 ⊢
  obtain ⟨e, he⟩ : ∃ e, c.toNat = 2 ^ k * 2 * q + e := ⟨c.toNat - 2 ^ k * 2 * q, by omega⟩
  rw [he] at h1 h2 ⊢
  have h3 : (2 ^ k * 2 * q + e) / 2 ^ k = 2 * q + e / 2 ^ k := by
    rw [show 2 ^ k * 2 * q + e = e + 2 ^ k * (2 * q) by ring, Nat.add_mul_div_left _ _ hp]; omega
  rw [h3]
  have h4 : e / 2 ^ k < 2 := by rw [Nat.div_lt_iff_lt_mul hp]; omega
  have h5 : 1 ≤ e / 2 ^ k ↔ 2 ^ k ≤ e := by rw [Nat.le_div_iff_mul_le hp]; omega
  generalize e / 2 ^ k = z at h4 h5 ⊢
  generalize 2 ^ k * 2 * q = y
  apply propext
  omega

/-- A tiling splits at a point that no interval straddles. -/
theorem Tiles.split {a b : Nat} {r : List Triple} (h : Tiles a r b) (m : Nat) (ham : a ≤ m) (hmb : m ≤ b)
    (hs : ∀ x ∈ r, x.code.toNat < m → x.code.toNat + sz x ≤ m) :
    Tiles a (r.takeWhile fun x => decide (x.code.toNat < m)) m ∧ Tiles m (r.dropWhile fun x => decide (x.code.toNat < m)) b := by
  induction r generalizing a with
  | nil => have h : a = b := h; exact ⟨by show a = m; omega, by show m = b; omega⟩
  | cons x r ih =>
    have hx := h.1
    by_cases hm : x.code.toNat < m
    · have := hs x (by simp) hm
      have := ih h.2.2.2.2 (by omega) (fun y hy => hs y (by simp [hy]))
      simp only [List.takeWhile_cons, List.dropWhile_cons, hm, decide_true, if_true]
      exact ⟨⟨h.1, h.2.1, h.2.2.1, h.2.2.2.1, this.1⟩, this.2⟩
    · have : a = m := by omega
      simp only [List.takeWhile_cons, List.dropWhile_cons, hm, decide_false, Bool.false_eq_true, if_false]
      exact ⟨this, this ▸ h⟩

theorem takeWhile_dropWhile_congr {α : Type} (p q : α → Bool) (l : List α) (h : ∀ x ∈ l, p x = q x) :
    l.takeWhile p = l.takeWhile q ∧ l.dropWhile p = l.dropWhile q := by
  induction l with
  | nil => exact ⟨rfl, rfl⟩
  | cons x l ih =>
    have := ih fun y hy => h y (by simp [hy])
    simp only [List.takeWhile_cons, List.dropWhile_cons, h x (by simp)]
    exact ⟨by rw [this.1], by rw [this.2]⟩

/-- The complement of an entry's code from level `32 - k` to its last level `clen - 1`. -/
def levelsComplement (k : Nat) (x : Triple) : List Bool :=
  (List.range (k - (32 - x.clen.toNat))).map fun j => !lvl x.code (32 - k + j)

theorem levelsComplement_succ {k : Nat} (hk : k < 32) {x : Triple} (h : sz x ≤ 2 ^ k) :
    levelsComplement (k + 1) x = (!lvl x.code (31 - k)) :: levelsComplement k x := by
  have : 32 - x.clen.toNat ≤ k := (Nat.pow_le_pow_iff_right (by omega)).mp h
  unfold levelsComplement
  rw [show k + 1 - (32 - x.clen.toNat) = (k - (32 - x.clen.toNat)) + 1 by omega, List.range_succ_eq_map,
    List.map_cons, List.map_map]
  rw [show 32 - (k + 1) + 0 = 31 - k by omega]
  refine congrArg (List.cons (!lvl x.code (31 - k))) (List.map_congr_left fun j _ => ?_)
  show (!lvl x.code (32 - (k+1) + (j + 1))) = _
  congr 2
  omega

/-- Where the entries of a sub-range tile its aligned block, every level down to an entry's own length splits: its stream
code is the complement of its code's levels there (41_build.md R147). -/
theorem Tiles.streamCode (k : Nat) (hk : k ≤ 32) (r : List Triple) (A : Nat) (hA : 2 ^ k ∣ A)
    (h : Tiles A r (A + 2 ^ k)) (h2 : 2 ≤ r.length) (x : Triple) (hx : x ∈ r) :
    Machine.streamCode k r x.code = levelsComplement k x := by
  induction k generalizing r A with
  | zero =>
    exfalso
    match r, h2 with
    | y :: z :: r, _ =>
      have := h.2.2.2.2.mem (x := z) (by simp)
      have := sz_pos y
      have := sz_pos z
      omega
  | succ k ih =>
    -- all sizes at most 2^k
    have hlt : ∀ y ∈ r, sz y ≤ 2^k := by
      intro y hy
      have hb : sz y < 2^(k+1) := by
        match r, h2 with
        | a :: b :: r, _ =>
          have h1 := h.1
          have h3 := h.2.2.2.2.mem (x := b) (by simp)
          have h4 := sz_pos a
          have h5 := sz_pos b
          rcases List.mem_cons.mp hy with rfl | hy
          · omega
          · have := h.2.2.2.2.mem hy
            omega
      unfold sz at hb ⊢
      have := (Nat.pow_lt_pow_iff_right (by omega)).mp hb
      exact Nat.pow_le_pow_right (by omega) (by omega)
    have hdvd : ∀ y ∈ r, sz y ∣ 2^k := fun y hy => by
      have := hlt y hy
      unfold sz at this ⊢
      exact Nat.pow_dvd_pow _ ((Nat.pow_le_pow_iff_right (by omega)).mp this)
    have hdc : ∀ {a b} {r : List Triple}, Tiles a r b → ∀ y ∈ r, sz y ∣ y.code.toNat := by
      intro a b r h
      induction r generalizing a with
      | nil => intro y hy; cases hy
      | cons z r ihr =>
        intro y hy
        rcases List.mem_cons.mp hy with rfl | hy
        · rw [h.1]; exact h.2.2.2.1
        · exact ihr h.2.2.2.2 y hy
    have hpk : 2^(k+1) = 2^k * 2 := Nat.pow_succ ..
    have hAk : 2^k ∣ A := Nat.dvd_trans ⟨2, hpk⟩ hA
    have hl : ∀ y ∈ r, lvl y.code (31 - k) = decide (A + 2^k ≤ y.code.toNat) := fun y hy => by
      have := h.mem hy
      have := sz_pos y
      exact lvl_div (by omega) hA (by omega) (by omega)
    have hsplit := h.split (A + 2^k) (by omega) (by omega) fun y hy hyl => by
      obtain ⟨q, hq⟩ := hdc h y hy
      obtain ⟨p, hp⟩ := (Nat.dvd_add (Nat.dvd_trans (hdvd y hy) hAk) (hdvd y hy))
      rw [hq, hp] at hyl ⊢
      have hqp : q < p := lt_of_mul_lt_mul_left hyl (Nat.zero_le _)
      calc sz y * q + sz y = sz y * (q + 1) := by ring
        _ ≤ sz y * p := Nat.mul_le_mul_left _ hqp
    have hz : zeros r (31 - k) = r.takeWhile fun x => decide (x.code.toNat < A + 2^k) := by
      refine (takeWhile_dropWhile_congr _ _ r fun y hy => ?_).1
      rw [hl y hy, ← decide_not, decide_eq_decide]; omega
    have ho : ones r (31 - k) = r.dropWhile fun x => decide (x.code.toNat < A + 2^k) := by
      refine (takeWhile_dropWhile_congr _ _ r fun y hy => ?_).2
      rw [hl y hy, ← decide_not, decide_eq_decide]; omega
    rw [← hz, ← ho] at hsplit
    have hzn : zeros r (31 - k) ≠ [] := fun h0 => by
      rw [h0] at hsplit; have : A = A + 2^k := hsplit.1; have := Nat.two_pow_pos k; omega
    have hon : ones r (31 - k) ≠ [] := fun h0 => by
      rw [h0] at hsplit; have : A + 2^k = A + 2^(k+1) := hsplit.2; have := Nat.two_pow_pos k; omega
    rw [Machine.streamCode, if_neg (by simp [hzn, hon]), levelsComplement_succ (by omega) (hlt x hx)]
    have hone : ∀ {B} {r' : List Triple}, Tiles B r' (B + 2^k) → r'.length = 1 → x ∈ r' →
        levelsComplement k x = [] := by
      intro B r' h hl hx
      match r', hl with
      | [y], _ =>
        rw [List.mem_singleton.mp hx] at *
        have h5 : B + sz y = B + 2^k := h.2.2.2.2
        have h6 : sz y = 2^k := by omega
        have := Nat.pow_right_injective (le_refl 2) h6
        unfold levelsComplement
        rw [show k - (32 - y.clen.toNat) = 0 by omega]; rfl
    have happ := zeros_append_ones r (31 - k)
    have hmem : x ∈ zeros r (31 - k) ∨ x ∈ ones r (31 - k) := by
      rw [← List.mem_append, happ]; exact hx
    have hkk : A + 2^(k+1) = A + 2^k + 2^k := by omega
    rw [hkk] at hsplit
    rcases hmem with hm | hm
    · have : lvl x.code (31 - k) = false := lvl_of_mem_zeros hm
      rw [this, if_neg (by simp)]
      split
      · next h1 => rw [hone hsplit.1 h1 hm]; rfl
      · next h1 =>
        have hlz : (zeros r (31-k)).length ≠ 0 := by simpa using hzn
        rw [ih (by omega) _ A hAk hsplit.1 (by omega) hm]; rfl
    · have : lvl x.code (31 - k) = true := by
        rw [hl x hx]; have := hsplit.2.mem hm; simp; omega
      rw [this, if_pos rfl]
      split
      · next h1 => rw [hone hsplit.2 h1 hm]; rfl
      · next h1 =>
        have hlz : (ones r (31-k)).length ≠ 0 := by simpa using hon
        rw [ih (by omega) _ (A + 2^k) (Nat.dvd_add hAk (Nat.dvd_refl _)) hsplit.2 (by omega) hm]; rfl

end Sys2Proof.Machine
end

