-- ==== Sys2Proof/Tests/Slice0.lean ====
section
/-! SUPPORT. Tests against the vectors of spec/95_test_vectors.md and the worked examples of the rules, and for every
statement that has hypotheses a state that meets them. -/

namespace Sys2Proof.Tests

open Sys2Proof Sys2Proof.Machine

/-! ### Small states -/

/-- The next state, if there is one. -/
def result : Host.Outcome State Fault Refusal → Option State
  | .next s => some s
  | .fault _ => none
  | .refused _ => none

/-- `s` with the host about to write `w` to CMD. -/
def writing (w : Word) (s : State) : State := { s with host := [.memWrite s.cfg.htbBase 4 w], turns := [] }

/-- `s` with the host about to do `op`, whatever the block is doing. -/
def hosting (op : HostOp) (s : State) : State := { s with host := [op], turns := [.host] }

/-- BUILD accepted, with these lengths loaded. -/
def buildingOf (n : Half) (len : List Host.Cell) : State :=
  { State.reset with st := .building, lastop := 0x4, nsym := n, len := len }

/-- The tree of V-B1, LEN = [1, 2, 2], built. -/
def built : State :=
  { State.reset with treeValid := true, lastop := 0x4, nsym := 3, nnodes := 2, nextNode := 2, len := [(0, 1), (1, 2), (2, 2)],
                     nodes := [(0, ⟨1, 0xFFFF, 0, 0⟩), (1, ⟨0xFFFF, 0xFFFF, 2, 1⟩)] }

/-- A DECODE that has just been accepted on that tree, with this stream to come. -/
def decodingOf (bits : List Bool) : State :=
  { built with st := .decoding, lastop := 0x5, source := { bits := bits, pos := 0, tail := .eos } }

/-- The block halted (V-B19). -/
def halted : State := { State.reset with st := .halted, err := .contract, lastop := 0x4, nsym := 1 }

theorem writing_next {w : Word} {s : State} (h : s.st.busy = false) :
    WritesCommand (writing w s) w { s with host := [], turns := [] } := ⟨[], rfl, .inr ⟨rfl, h, rfl⟩⟩

theorem hosting_next (op : HostOp) (s : State) : HostNext (hosting op s) op { s with host := [], turns := [] } :=
  ⟨[], rfl, .inl ⟨[], rfl, rfl⟩⟩

theorem block_next {s : State} (h : s.st.busy = true) (ht : s.turns = []) : BlockNext s s := ⟨h, .inr ⟨ht, rfl⟩⟩

/-! ### WellFormed: a term that each check refuses -/

theorem test_setn_65535_is_well_formed : (Instr.setn 65535).wf = true := by decide
theorem test_setn_65536_is_ill_formed : (Instr.setn 65536).wf = false := by decide
theorem test_ldlen_65535_255_is_well_formed : (Instr.ldlen 65535 255).wf = true := by decide
theorem test_ldlen_index_65536_is_ill_formed : (Instr.ldlen 65536 0).wf = false := by decide
theorem test_ldlen_length_256_is_ill_formed : (Instr.ldlen 0 256).wf = false := by decide
theorem test_rdlen_65536_is_ill_formed : (Instr.rdlen 65536).wf = false := by decide
theorem test_rdnode_65536_is_ill_formed : (Instr.rdnode 65536).wf = false := by decide

/-! ### Decoding: words written out from 30_encoding.md R80, R82: OP, Z, L, X -/

theorem test_decode_nop : decodeWord 0b0000_0000_00000000_0000000000000000#32 = .ok .nop := by decide
theorem test_decode_setn : decodeWord 0b0001_0000_00000000_0000000100000010#32 = .ok (.setn 258) := by decide
theorem test_decode_ldlen : decodeWord 0b0010_0000_00000010_0000000000000011#32 = .ok (.ldlen 3 2) := by decide
theorem test_decode_ldlen_edge : decodeWord 0b0010_0000_11111111_1000000000000001#32 = .ok (.ldlen 32769 255) := by decide
theorem test_decode_rdlen : decodeWord 0b0011_0000_00000000_1111111111111111#32 = .ok (.rdlen 65535) := by decide
theorem test_decode_build : decodeWord 0b0100_0000_00000000_0000000000000000#32 = .ok .build := by decide
theorem test_decode_decode : decodeWord 0b0101_0000_00000000_0000000000000000#32 = .ok .decode := by decide
theorem test_decode_discard : decodeWord 0b0110_0000_00000000_0000000000000000#32 = .ok .discard := by decide
theorem test_decode_rdnode : decodeWord 0b0111_0000_00000000_1000000000000000#32 = .ok (.rdnode 32768) := by decide

/-- Words that spell no command, each with its reason (R83, R84; 95 section 2.1). -/
theorem test_decode_illegal_words :
    decodeWord 0x80000000#32 = .error .reservedOp ∧ decodeWord 0xFFFFFFFF#32 = .error .reservedOp ∧
      decodeWord 0x01000000#32 = .error .nonzeroZ ∧ decodeWord 0x28000000#32 = .error .nonzeroZ ∧
      decodeWord 0x00000001#32 = .error .nonzeroOperand ∧ decodeWord 0x10010003#32 = .error .nonzeroOperand ∧
      decodeWord 0x30800000#32 = .error .nonzeroOperand ∧ decodeWord 0x40000001#32 = .error .nonzeroOperand ∧
      decodeWord 0x50010000#32 = .error .nonzeroOperand ∧ decodeWord 0x60008000#32 = .error .nonzeroOperand ∧
      decodeWord 0x70010000#32 = .error .nonzeroOperand := by decide

/-- R89's example. -/
theorem test_encode_ldlen : encode (.ldlen 3 2) = 0x20020003#32 := by decide

theorem test_decodeTableWord :
    decodeTableWord 32 0x10000103 = some (.setn 259) ∧ decodeTableWord 32 0x80000000 = none ∧
      decodeTableWord 64 0x10000103 = none := by decide

/-- The word that withFetchWord places is the command that the next step runs. -/
theorem test_withFetchWord : (result (step (State.reset.withFetchWord 32 0x10000003))).map State.nsym = some 3 := by decide

/-- R87's syntax: a form with two operands, one of them hexadecimal, and a comment. -/
theorem test_assemble_ldlen :
    assembleLine ['L', 'D', 'L', 'E', 'N', ' ', '0', 'x', '1', 'F', ',', ' ', '2', ' ', ';', 'a'] =
      .ok (some (.ldlen 31 2)) := by decide

/-- R87: "an operand out of its field's range ... is an assembly error". -/
theorem test_assemble_out_of_range :
    assembleLine ['S', 'E', 'T', 'N', ' ', '6', '5', '5', '3', '6'] = .error .outOfRange := by decide

/-! ### The commands (95 sections 2.2 to 2.6) -/

/-- R100's example: STATUS = 0x00000012; NOP gives 0x00000002. -/
theorem test_nop_status :
    ({ built with lastop := 0, overrun := true } : State).statusWord = 0x12#32 ∧
      (result (exec .nop { built with lastop := 0, overrun := true })).map State.statusWord = some 0x2#32 := by decide

/-- R101's examples: SETN 258 and SETN 259. -/
theorem test_setn :
    (result (exec (.setn 258) State.reset)).map (fun t => (t.nsym, t.err)) = some (258, .ok) ∧
      (result (exec (.setn 259) State.reset)).map (fun t => (t.nsym, t.err)) = some (0, .index) := by decide

/-- LDLEN 257, 255 stores; LDLEN 258, 1 is out of range. -/
theorem test_ldlen :
    (result (exec (.ldlen 257 255) State.reset)).map (fun t => (Memory.read t.len 257, t.err)) = some (some 255, .ok) ∧
      (result (exec (.ldlen 258 1) State.reset)).map (fun t => (t.len, t.err)) = some ([], .index) := by decide

/-- RDLEN 5 with LEN[5] = 7; RDLEN 300 leaves RESULT and clears RESULT_VALID. -/
theorem test_rdlen :
    (result (exec (.rdlen 5) { State.reset with len := [(5, 7)] })).map (fun t => (t.rval, t.resultValid)) =
        some (7, true) ∧
      (result (exec (.rdlen 300) { State.reset with rval := 7, resultValid := true })).map
        (fun t => (t.rval, t.resultValid, t.err)) = some (7, false, .index) := by decide

/-- R104's example. -/
theorem test_discard :
    (result (exec .discard built)).map (fun t => (t.treeValid, t.nnodes, t.lastop)) = some (false, 0, 6) := by decide

/-- V-B19: BUILD with NSYM = 1 halts, STATUS = 0x00004108. -/
theorem test_build_contract :
    (result (exec .build { State.reset with nsym := 1 })).map (fun t => (t.st, t.statusWord)) =
      some (.halted, 0x4108#32) := by decide

/-- V-B6, LEN = [2, 2, 0]: the length-0 symbol is decodable; node 0 has symbol 2 on its RIGHT. -/
theorem test_build_length_zero :
    (result (step (buildingOf 3 [(0, 2), (1, 2), (2, 0)]))).map (fun t => (t.treeValid, t.nodes)) =
      some (true, [(0, ⟨1, 0xFFFF, 0, 2⟩), (1, ⟨0xFFFF, 0xFFFF, 1, 0⟩)]) := by decide

/-- V-D7: DECODE with no tree. -/
theorem test_decode_no_tree :
    (result (exec .decode { State.reset with bitcnt := 3, cur := 1 })).map (fun t => (t.err, t.bitcnt, t.cur, t.st)) =
      some (.notree, 3, 1, .idle) := by decide

/-- The second bit of R180's example: from node 1, "0" ends with symbol 1 and BITCNT 2. -/
theorem test_decode_second_bit :
    (result (step { decodingOf [true, false] with
        cur := 1, bitcnt := 1, source := { bits := [true, false], pos := 1, tail := .eos } })).map
      (fun t => (t.rval, t.bitcnt, t.statusWord)) = some (1, 2, 0x5006#32) := by decide

/-- Section 2.5, tree V-B1: RDNODE 0 and RDNODE 1. -/
theorem test_rdnode :
    (result (exec (.rdnode 0) built)).map (fun t => (t.nodeIdx, t.nodeVal)) = some (0xFFFF0001#32, 0#32) ∧
      (result (exec (.rdnode 1) built)).map (fun t => (t.nodeIdx, t.nodeVal)) = some (0xFFFFFFFF#32, 0x00010002#32) := by
  decide

/-- Section 2.6: with no tree, 0x70010000 is ILLEGAL and 0x70000005 is NOTREE. -/
theorem test_priority :
    (result (step (writing 0x70010000 State.reset))).map State.err = some .illegal ∧
      (result (step (writing 0x70000005 State.reset))).map State.err = some .notree := by decide

/-- The ID register of the default configuration (R30). -/
theorem test_id : State.reset.regWord .id = 0x01200102#32 := by decide

/-- R65: bit 7 of a byte comes first. -/
theorem test_byte_order_of_stream :
    (BitSource.ofBytes [0x53]).bits = [false, true, false, true, false, false, true, true] := by decide

/-- R88: LOADLENS is SETN and one LDLEN for each length, each followed by WAIT. -/
theorem test_loadlens :
    hostLoadLens Config.standard [1, 2] =
      [.memWrite 0 4 0x10000002#32, .wait, .memWrite 0 4 0x20010000#32, .wait, .memWrite 0 4 0x20020001#32, .wait] := by
  decide

/-! ### Witnesses: states that meet the hypotheses of the statements -/

theorem built_inv : Inv built where
  config := by decide
  len_wf := by decide
  len_below := by decide
  nodes_wf := by decide
  nodes_below := by decide
  nsym_legal := by decide
  no_tree h := by cases h
  tree_next _ := rfl
  tree_filled _ i hi := by
    have hi' : i < 2 := hi
    match i, hi' with
    | 0, _ => exact ⟨_, rfl, .inr ⟨by decide, by decide, rfl⟩, .inl ⟨rfl, by decide⟩⟩
    | 1, _ => exact ⟨_, rfl, .inl ⟨rfl, by decide⟩, .inl ⟨rfl, by decide⟩⟩
  tree_closed _ := by decide
  building h := by cases h
  decoding h := by cases h
  halted := by decide
  result h := by cases h
  never_empty := by decide
  bitcnt_le := by decide
  scratch := ⟨rfl, rfl⟩

theorem decoding_inv (bits : List Bool) : Inv (decodingOf bits) :=
  { built_inv with
    building := fun h => by cases h
    decoding := fun _ => ⟨rfl, rfl, rfl, rfl, by show (0 : BitVec 6).toNat < 32; decide, built_inv.tree_closed rfl⟩
    halted := ⟨fun h => (by cases h), fun h => (by cases h)⟩
    result := fun h => by cases h }

theorem building_inv : Inv (buildingOf 3 [(0, 1), (1, 2), (2, 2)]) where
  config := by decide
  len_wf := by decide
  len_below := by decide
  nodes_wf := by decide
  nodes_below := by decide
  nsym_legal := by decide
  no_tree _ := rfl
  tree_next h := by cases h
  tree_filled h := by cases h
  tree_closed h := by cases h
  building _ := by decide
  decoding h := by cases h
  halted := by decide
  result h := by cases h
  never_empty := by decide
  bitcnt_le := by decide
  scratch := ⟨rfl, rfl⟩

theorem witness_DecodeEncode : (Instr.ldlen 65535 255).WellFormed ∧ (Instr.setn 0).WellFormed := by decide

theorem witness_EncodeDecode : decodeWord 0x20FFFFFF#32 = .ok (.ldlen 65535 255) := by decide

theorem witness_WordSpellsRow :
    8 ≤ ((0x80000000 : Word).extractLsb 31 28).toNat ∧ 8 ≤ ((0xFFFFFFFF : Word).extractLsb 31 28).toNat := by decide

theorem witness_WordsOfCommands : 65535 < 65536 ∧ 255 < 256 := by decide

/-- The least and the greatest reserved OP, and a nonzero must-be-zero bit of each kind. -/
theorem witness_IllegalWordsRaiseIllegal : ∀ w ∈ [0x80000000#32, 0xFFFFFFFF#32, 0x01000000#32, 0x00000001#32, 0x70010000#32],
    State.reset.st = .idle ∧ WritesCommand (writing w State.reset) w State.reset ∧ ∃ e, decodeWord w = .error e := by
  intro w hw
  refine ⟨rfl, writing_next rfl, ?_⟩
  simp only [List.mem_cons, List.not_mem_nil, or_false] at hw
  rcases hw with rfl | rfl | rfl | rfl | rfl
  · exact ⟨.reservedOp, by decide⟩
  · exact ⟨.reservedOp, by decide⟩
  · exact ⟨.nonzeroZ, by decide⟩
  · exact ⟨.nonzeroOperand, by decide⟩
  · exact ⟨.nonzeroOperand, by decide⟩

theorem witness_AssembledLineHasEncoding :
    assembleLine ['L', 'D', 'L', 'E', 'N', ' ', '6', '5', '5', '3', '5', ',', ' ', '2', '5', '5'] =
      .ok (some (.ldlen 65535 255)) := by decide

/-- Number texts on both sides of each field's range, in decimal and in `0x` hexadecimal. -/
theorem witness_AssembledLineHasEncoding_numbers :
    SpellsNumber ['6', '5', '5', '3', '5'] 65535 ∧ SpellsNumber ['6', '5', '5', '3', '6'] 65536 ∧
      SpellsNumber ['0', 'x', 'f', 'f'] 255 ∧ SpellsNumber ['2', '5', '6'] 256 ∧ ';' ∉ ['N', 'O', 'P'] :=
  ⟨⟨[6, 5, 5, 3, 5], by decide⟩, ⟨[6, 5, 5, 3, 6], by decide⟩, ⟨[15, 15], by decide⟩, ⟨[2, 5, 6], by decide⟩, by decide⟩

theorem witness_StepRunsDecodedCommand :
    decodeWord 0x40000000#32 = .ok .build ∧ (writing 0x40000000 State.reset).st = .idle ∧
      WritesCommand (writing 0x40000000 State.reset) 0x40000000 State.reset := ⟨by decide, rfl, writing_next rfl⟩

theorem witness_BusyWriteDroppedOverrunSticky_dropped :
    (hosting (.memWrite 0 4 0#32) (decodingOf [])).st = .decoding ∧
      WritesCommand (hosting (.memWrite 0 4 0#32) (decodingOf [])) 0#32 (decodingOf []) ∧
      (hosting (.memWrite 0 4 0#32) (buildingOf 2 [])).st = .building ∧
      WritesCommand (hosting (.memWrite 0 4 0#32) (buildingOf 2 [])) 0#32 (buildingOf 2 []) :=
  ⟨rfl, hosting_next _ _, rfl, hosting_next _ _⟩

theorem witness_BusyWriteDroppedOverrunSticky_cleared :
    (∃ t, step (writing 0 { built with overrun := true }) = .next t ∧ t.overrun = false) ∧
      ∃ t, step { decodingOf [] with overrun := true, turns := [.reset] } = .next t ∧ t.overrun = false :=
  ⟨⟨_, rfl, by decide⟩, _, rfl, by decide⟩

theorem witness_HaltedDropsCommandsUntilReset :
    halted.st = .halted ∧ WritesCommand (writing 0x80000000 halted) 0x80000000 halted ∧
      HostNext (hosting (.memRead 0 4) halted) (.memRead (halted.cfg.htbBase + 4 * 0) 4) halted ∧
      HostNext (hosting (.memRead 60 4) halted) (.memRead (halted.cfg.htbBase + 4 * 15) 4) halted ∧
      halted.turns = [] ∧ halted.host = [] :=
  ⟨rfl, writing_next rfl, hosting_next _ _, hosting_next _ _, rfl, rfl⟩

theorem witness_HaltedDropsCommandsUntilReset_enters :
    (writing 0x40000000 State.reset).err ≠ .contract ∧
      ∃ t, step (writing 0x40000000 State.reset) = .next t ∧ t.err = .contract := ⟨by decide, _, rfl, by decide⟩

theorem witness_RegisterMap : ∀ k ∈ [0, 1, 8, 9, 15],
    k < 16 ∧ HostNext (hosting (.memRead (4 * k) 4) built) (.memRead (4 * k) 4) built := by
  intro k hk
  refine ⟨?_, hosting_next _ _⟩
  simp only [List.mem_cons, List.not_mem_nil, or_false] at hk
  omega

theorem witness_RegisterMap_write : ∀ k ∈ [0, 1, 15],
    k < 16 ∧ HostNext (hosting (.memWrite (4 * k) 4 7#32) built) (.memWrite (4 * k) 4 7#32) built := by
  intro k hk
  refine ⟨?_, hosting_next _ _⟩
  simp only [List.mem_cons, List.not_mem_nil, or_false] at hk
  omega

/-- A half word, a misaligned address and the first address after the window. -/
theorem witness_AccessOutsidePortRefused :
    ((2 ≠ 4 ∨ ∀ k < 16, 0 ≠ built.cfg.htbBase + 4 * k) ∧ HostNext (hosting (.memRead 0 2) built) (.memRead 0 2) built) ∧
      ((4 ≠ 4 ∨ ∀ k < 16, 62 ≠ built.cfg.htbBase + 4 * k) ∧
        HostNext (hosting (.memRead 62 4) built) (.memRead 62 4) built) ∧
      ((4 ≠ 4 ∨ ∀ k < 16, 64 ≠ built.cfg.htbBase + 4 * k) ∧
        HostNext (hosting (.memWrite 64 4 0#32) built) (.memWrite 64 4 0#32) built) :=
  ⟨⟨by decide, hosting_next _ _⟩, ⟨by decide, hosting_next _ _⟩, by decide, hosting_next _ _⟩

theorem witness_IdRegisterConstant :
    ({ nsymMax := 2, htbBase := 0, hostByteOrder := .big } : Config).WellFormed ∧
      ({ nsymMax := 65535, htbBase := 0, hostByteOrder := .little } : Config).WellFormed := by decide

theorem witness_ResetInputResetsBlock :
    ({ decodingOf [true] with turns := [.reset] } : State).turns = .reset :: [] ∧
      ({ halted with turns := [.reset, .host] } : State).turns = .reset :: [.host] := ⟨rfl, rfl⟩

/-- A step of every kind that changes the control state. -/
theorem witness_ControlTransitions :
    (∃ t, step (writing 0x40000000 { State.reset with nsym := 2 }) = .next t ∧ t.st = .building) ∧
      (∃ t, step (writing 0x40000000 { State.reset with nsym := 1 }) = .next t ∧ t.st = .halted) ∧
      (∃ t, step (buildingOf 2 [(0, 1), (1, 1)]) = .next t ∧ t.st = .idle) ∧
      (∃ t, step (writing 0x50000000 built) = .next t ∧ t.st = .decoding) ∧
      (∃ t, step (decodingOf [false]) = .next t ∧ t.st = .idle) ∧
      (∃ t, step (decodingOf []) = .next t ∧ t.st = .idle) ∧
      ∃ t, step { halted with turns := [.reset] } = .next t ∧ t.st = .idle :=
  ⟨⟨_, rfl, by decide⟩, ⟨_, rfl, by decide⟩, ⟨_, rfl, by decide⟩, ⟨_, rfl, by decide⟩, ⟨_, rfl, by decide⟩,
    ⟨_, rfl, by decide⟩, _, rfl, by decide⟩

theorem witness_BitSourceReadOnlyWhileDecoding :
    ∃ t, step (decodingOf [true]) = .next t ∧ t.source ≠ (decodingOf [true]).source := ⟨_, rfl, by decide⟩

theorem witness_ResultWrittenOnlyOnSuccess :
    (∃ t, step (writing 0x30000001 built) = .next t ∧ t.rval ≠ built.rval) ∧
      (∃ t, step { decodingOf [false] with rval := 7 } = .next t ∧ t.rval ≠ 7) ∧
      ∃ t, step { halted with rval := 7, turns := [.reset] } = .next t ∧ t.rval ≠ 7 :=
  ⟨⟨_, rfl, by decide⟩, ⟨_, rfl, by decide⟩, _, rfl, by decide⟩

theorem witness_TreeImmutableWhileValid_built :
    Inv (buildingOf 3 [(0, 1), (1, 2), (2, 2)]) ∧
      ∃ t, step (buildingOf 3 [(0, 1), (1, 2), (2, 2)]) = .next t ∧ t.treeValid = true :=
  ⟨building_inv, _, rfl, by decide⟩

theorem witness_TreeImmutableWhileValid_dropped :
    ∀ w ∈ [0x40000000#32, 0x60000000#32],
      Inv (writing w built) ∧ ∃ t, step (writing w built) = .next t ∧ t.treeValid = false := by
  intro w hw
  refine ⟨{ built_inv with }, ?_⟩
  simp only [List.mem_cons, List.not_mem_nil, or_false] at hw
  rcases hw with rfl | rfl
  · exact ⟨_, rfl, by decide⟩
  · exact ⟨_, rfl, by decide⟩

theorem witness_TreeImmutableWhileValid_kept :
    Inv (writing 0x20050000 built) ∧ built.treeValid = true ∧
      ∃ t, step (writing 0x20050000 built) = .next t ∧ t.treeValid = true := ⟨{ built_inv with }, rfl, _, rfl, by decide⟩

theorem witness_NodesUnreadWithoutTree :
    (writing 0x70000000 State.reset).treeValid = false ∧ (writing 0x70000000 State.reset).st = .idle ∧
      (∃ t, step (writing 0x70000000 State.reset) = .next t) ∧ halted.treeValid = false ∧ halted.st = .halted ∧
      ∃ t, step (writing 0 halted) = .next t := ⟨rfl, rfl, ⟨_, rfl⟩, rfl, rfl, _, rfl⟩

theorem witness_EveryCommandAnswersNext :
    ∃ t, exec (.rdlen 1) built = .next t ∧ t.resultValid = true := ⟨_, rfl, by decide⟩

theorem witness_NopClearsOverrunOnly :
    (∃ t, exec .discard { built with overrun := true } = .next t) ∧ Instr.discard ≠ .nop := ⟨⟨_, rfl⟩, by decide⟩

theorem witness_SetnSetsAlphabetSize :
    State.reset.st = .idle ∧ State.reset.cfg.WellFormed ∧ 258 ≤ State.reset.cfg.nsymMax ∧
      State.reset.cfg.nsymMax < 259 := by decide

theorem witness_LdlenWritesOneEntry :
    State.reset.st = .idle ∧ 255 < 256 ∧ 257 < State.reset.cfg.nsymMax ∧ State.reset.cfg.nsymMax ≤ 258 := by decide

theorem witness_RdlenReturnsEntry :
    built.st = .idle ∧ 2 < built.cfg.nsymMax ∧ Memory.read built.len 2 = some 2 ∧ 257 < built.cfg.nsymMax ∧
      Memory.read built.len 257 = none ∧ built.cfg.nsymMax ≤ 258 := by decide

theorem witness_BuildAccepted :
    (2 ≤ ({ State.reset with nsym := 2 } : State).nsym.toNat ∧
        ({ State.reset with nsym := 2 } : State).nsym.toNat ≤ State.reset.cfg.nsymMax) ∧
      2 ≤ ({ State.reset with nsym := 258 } : State).nsym.toNat ∧
      ({ State.reset with nsym := 258 } : State).nsym.toNat ≤ State.reset.cfg.nsymMax := by decide

theorem witness_BuildContractViolationHalts :
    State.reset.nsym.toNat < 2 ∧ halted.nsym.toNat < 2 ∧
      Config.standard.nsymMax < ({ State.reset with nsym := 259 } : State).nsym.toNat := by decide

theorem witness_DecodeAccepted : built.treeValid = true := rfl

theorem witness_DecodeWithoutTree : State.reset.st = .idle ∧ State.reset.treeValid = false := ⟨rfl, rfl⟩

theorem witness_RdnodeShowsNode :
    built.st = .idle ∧ built.treeValid = true ∧ 1 < built.nnodes.toNat ∧
      Memory.read built.nodes 1 = some ⟨0xFFFF, 0xFFFF, 2, 1⟩ ∧ built.nnodes.toNat ≤ 2 ∧ State.reset.treeValid = false := by
  decide

theorem witness_PairsAscendByLengthThenSymbol : 2 < built.nsym.toNat ∧ Memory.read built.len 2 = some 2 := by decide

theorem witness_StoredCodesSumIncrements : [(⟨1, 0⟩ : Pair), ⟨2, 1⟩][1]? = some ⟨2, 1⟩ := by decide

theorem witness_BuildCompletionCommits :
    (buildingOf 2 []).st = .building ∧ (buildingOf 2 []).pairs = [] ∧ (buildingOf 2 []).codes = [] ∧
      BlockNext (buildingOf 2 []) (buildingOf 2 []) := ⟨rfl, rfl, rfl, block_next rfl rfl⟩

/-- V-B1 and V-B8. -/
theorem witness_BuildSucceedsIffCodesDistinct :
    (CodesDistinct (buildingOf 3 [(0, 1), (1, 2), (2, 2)]) ∧
        BlockNext (buildingOf 3 [(0, 1), (1, 2), (2, 2)]) (buildingOf 3 [(0, 1), (1, 2), (2, 2)])) ∧
      (¬ CodesDistinct (buildingOf 2 [(0, 0), (1, 0)]) ∧ 2 ≤ (buildingOf 2 [(0, 0), (1, 0)]).nsym.toNat ∧
        BlockNext (buildingOf 2 [(0, 0), (1, 0)]) (buildingOf 2 [(0, 0), (1, 0)])) :=
  ⟨⟨by unfold CodesDistinct; decide, block_next rfl rfl⟩, by unfold CodesDistinct; decide, by decide, block_next rfl rfl⟩

/-- V-B11: Kraft sum 2 / 2^32, far below 1. -/
theorem witness_BuildSucceedsUnderKraft :
    (buildingOf 2 [(0, 32), (1, 32)]).treeValid = false ∧ LensWritten (buildingOf 2 [(0, 32), (1, 32)]) ∧
      LensInRange (buildingOf 2 [(0, 32), (1, 32)]) ∧ kraftSum (buildingOf 2 [(0, 32), (1, 32)]) ≤ 2 ^ 32 ∧
      BlockNext (buildingOf 2 [(0, 32), (1, 32)]) (buildingOf 2 [(0, 32), (1, 32)]) :=
  ⟨rfl, by unfold LensWritten; decide, by unfold LensInRange; decide, by decide, block_next rfl rfl⟩

theorem witness_TwoZeroLengthsFail :
    (buildingOf 3 [(0, 0), (2, 0)]).treeValid = false ∧ 0 < 2 ∧ 2 < (buildingOf 3 [(0, 0), (2, 0)]).nsym.toNat ∧
      Memory.read (buildingOf 3 [(0, 0), (2, 0)]).len 0 = some 0 ∧
      Memory.read (buildingOf 3 [(0, 0), (2, 0)]).len 2 = some 0 ∧
      BlockNext (buildingOf 3 [(0, 0), (2, 0)]) (buildingOf 3 [(0, 0), (2, 0)]) :=
  ⟨rfl, by decide, by decide, rfl, rfl, block_next rfl rfl⟩

/-- V-B14, LEN = [1, 1, 0], and V-B6, LEN = [2, 2, 0]. -/
theorem witness_OneZeroLengthFailsIffComplete :
    (LensWritten (buildingOf 3 [(0, 1), (1, 1), (2, 0)]) ∧ lenOf (buildingOf 3 [(0, 1), (1, 1), (2, 0)]) 2 = 0 ∧
      (∀ i < 3, i ≠ 2 → 1 ≤ lenOf (buildingOf 3 [(0, 1), (1, 1), (2, 0)]) i ∧
        lenOf (buildingOf 3 [(0, 1), (1, 1), (2, 0)]) i ≤ 32) ∧
      kraftSum (buildingOf 3 [(0, 1), (1, 1), (2, 0)]) = 2 ^ 32 + 2 ^ 32) ∧
    (LensWritten (buildingOf 3 [(0, 2), (1, 2), (2, 0)]) ∧ lenOf (buildingOf 3 [(0, 2), (1, 2), (2, 0)]) 2 = 0 ∧
      (∀ i < 3, i ≠ 2 → 1 ≤ lenOf (buildingOf 3 [(0, 2), (1, 2), (2, 0)]) i ∧
        lenOf (buildingOf 3 [(0, 2), (1, 2), (2, 0)]) i ≤ 32) ∧
      kraftSum (buildingOf 3 [(0, 2), (1, 2), (2, 0)]) < 2 ^ 32 + 2 ^ 32) :=
  ⟨⟨by unfold LensWritten; decide, by decide, by decide, by decide⟩,
    by unfold LensWritten; decide, by decide, by decide, by decide⟩

theorem witness_BuildAllocatesNodesForLeaves :
    2 ≤ (buildingOf 2 [(0, 1), (1, 1)]).nsym.toNat ∧ (buildingOf 2 [(0, 1), (1, 1)]).treeValid = false ∧
      BlockNext (buildingOf 2 [(0, 1), (1, 1)]) (buildingOf 2 [(0, 1), (1, 1)]) :=
  ⟨by decide, rfl, block_next rfl rfl⟩

/-- V-B1: the stream code of the stored code 0x40000000 (symbol 1) is "10". -/
theorem witness_StreamCodeLeadsToSymbol :
    CodesDistinct (buildingOf 3 [(0, 1), (1, 2), (2, 2)]) ∧
      (⟨0x40000000, 2, 1⟩ : Triple) ∈ storedCodes (buildingOf 3 [(0, 1), (1, 2), (2, 2)]) ∧
      streamCode 32 (sortStable Triple.le (storedCodes (buildingOf 3 [(0, 1), (1, 2), (2, 2)]))) 0x40000000 =
        [true, false] := ⟨by unfold CodesDistinct; decide, by decide, by decide⟩

/-- V-B1: the canonical code of symbol 2, at position 2 of PAIRS, is "11". -/
theorem witness_CompleteCodeDecodesCanonically :
    LensWritten (buildingOf 3 [(0, 1), (1, 2), (2, 2)]) ∧ LensInRange (buildingOf 3 [(0, 1), (1, 2), (2, 2)]) ∧
      kraftSum (buildingOf 3 [(0, 1), (1, 2), (2, 2)]) = 2 ^ 32 ∧
      (buildingOf 3 [(0, 1), (1, 2), (2, 2)]).sortedPairs[2]? = some ⟨2, 2⟩ ∧
      canonicalCode (buildingOf 3 [(0, 1), (1, 2), (2, 2)]).sortedPairs 2 ⟨2, 2⟩ = [true, true] :=
  ⟨by unfold LensWritten; decide, by unfold LensInRange; decide, by decide, by decide, by decide⟩

/-- Two states with the same two lengths, one with another entry and an old node array. -/
theorem witness_BuildDependsOnLengthsOnly :
    LensWritten (buildingOf 2 [(0, 1), (1, 1)]) ∧
      (∀ i < 2, Memory.read ({ buildingOf 2 [(0, 1), (1, 1), (2, 9)] with nodes := built.nodes } : State).len i =
        Memory.read (buildingOf 2 [(0, 1), (1, 1)]).len i) ∧
      BlockNext { buildingOf 2 [(0, 1), (1, 1), (2, 9)] with nodes := built.nodes }
        { buildingOf 2 [(0, 1), (1, 1), (2, 9)] with nodes := built.nodes } :=
  ⟨by unfold LensWritten; decide, by decide, block_next rfl rfl⟩

/-- "1" moves on, "0" ends at a leaf. -/
theorem witness_TraversalStep :
    Memory.read (decodingOf [true]).nodes (decodingOf [true]).cur.toNat = some ⟨1, 0xFFFF, 0, 0⟩ ∧
      (decodingOf [true]).source.answer = .bit true ∧ (decodingOf [false]).source.answer = .bit false ∧
      BlockNext (decodingOf [true]) (decodingOf [true]) := ⟨by decide, by decide, by decide, block_next rfl rfl⟩

theorem witness_TruncatedStreamEndsDecode :
    (decodingOf []).source.answer = .eos ∧ BlockNext (decodingOf []) (decodingOf []) := ⟨by decide, block_next rfl rfl⟩

theorem witness_BitSourceAnswers :
    ({ bits := [], pos := 0, tail := .silent } : BitSource).answer = .pending ∧
      BlockNext { decodingOf [] with source := { bits := [], pos := 0, tail := .silent } }
        { decodingOf [] with source := { bits := [], pos := 0, tail := .silent } } := ⟨by decide, block_next rfl rfl⟩

theorem witness_DecodeEndsWithin32Bits :
    Inv (decodingOf [true]) ∧ (decodingOf [true]).st = .decoding ∧ (decodingOf [true]).turns = [] ∧
      (decodingOf [true]).source.tail ≠ .silent := ⟨decoding_inv _, rfl, rfl, by decide⟩

theorem witness_DecodeFollowsStreamCode :
    (decodingOf [true, true, false]).cur = 0 ∧ leads (decodingOf [true, true, false]).nodes [true, true] 0 = some 2 ∧
      (decodingOf [true, true, false]).source.bits.drop 0 = [true, true] ++ [false] := by decide

theorem witness_StepKeepsInvariant : Inv (writing 0x60000000 built) ∧ ∃ t, step (writing 0x60000000 built) = .next t :=
  ⟨{ built_inv with }, _, rfl⟩

theorem witness_WaitPollsStatus :
    HostNext (hosting .wait (decodingOf [])) .wait (decodingOf []) ∧ (decodingOf []).statusWord.getLsbD 0 = true ∧
      HostNext (hosting .wait built) .wait built ∧ built.statusWord.getLsbD 0 = false :=
  ⟨hosting_next _ _, by decide, hosting_next _ _, by decide⟩

theorem witness_IdleBlockWaits :
    built.st = .idle ∧ built.turns = [] ∧ built.host = [] ∧ ({ built with turns := [.block] } : State).turns = .block :: [] :=
  ⟨rfl, rfl, rfl, rfl⟩

end Sys2Proof.Tests
end

section
/-! The obligations of 10_state.md: what the registers show, and which steps change the parameters, the control state,
RVAL and the tree. -/

namespace Sys2Proof

/-! ### A word that decodes is its command's word (30_encoding.md R82, R86) -/

theorem plainCommand_ok {i j : Instr} {w : Word} (h : plainCommand i w = .ok j) :
    j = i ∧ fieldL w = 0#8 ∧ fieldX w = 0#16 := by
  unfold plainCommand at h
  split at h
  · next hf => cases h; exact ⟨rfl, hf⟩
  · cases h

theorem indexCommand_ok {f : Nat → Instr} {j : Instr} {w : Word} (h : indexCommand f w = .ok j) :
    j = f (fieldX w).toNat ∧ fieldL w = 0#8 := by
  unfold indexCommand at h
  split at h
  · next hf => cases h; exact ⟨rfl, hf⟩
  · cases h

/-- The operand fields of a word that decodes are those of its command's word. -/
theorem encode_eq_packWord_of_decodeWord {w : Word} {i : Instr} (h : decodeWord w = .ok i) :
    encode i = packWord (opcode i) (fieldL w) (fieldX w) := by
  obtain ⟨h8, hz⟩ := decodeWord_ok h
  unfold decodeWord at h
  rw [if_neg (by omega), if_neg (by simp [hz])] at h
  -- `split` numbers its cases by the OP values 0 to 7, and then the rest
  split at h
  case h_3 => cases h; simp [encode, opcode]
  case h_9 => cases h
  case h_1 | h_5 | h_6 | h_7 => obtain ⟨rfl, hL, hX⟩ := plainCommand_ok h; simp [encode, opcode, hL, hX]
  case h_2 | h_4 | h_8 => obtain ⟨rfl, hL⟩ := indexCommand_ok h; simp [encode, opcode, hL]

theorem encode_of_decodeWord {w : Word} {i : Instr} (h : decodeWord w = .ok i) : encode i = w := by
  rw [encode_eq_packWord_of_decodeWord h, ← fieldOp_of_decodeWord h, packWord_fields w (decodeWord_ok h).2]

end Sys2Proof

namespace Sys2Proof.Machine

/-! ### The words of STATUS, ID and RESULT by bit number (10_state.md R23, R24, R30) -/

theorem Ctl.busy_eq (c : Ctl) : c.busy = (decide (c = .building) || decide (c = .decoding)) := by cases c <;> rfl

theorem Ctl.isHalted_eq (c : Ctl) : c.isHalted = decide (c = .halted) := by cases c <;> rfl

theorem statusWord_flags (s : State) :
    s.statusWord.getLsbD 0 = s.st.busy ∧ s.statusWord.getLsbD 1 = s.treeValid ∧
      s.statusWord.getLsbD 2 = s.resultValid ∧ s.statusWord.getLsbD 3 = s.st.isHalted ∧
      s.statusWord.getLsbD 4 = s.overrun := by
  simp only [State.statusWord, BitVec.getLsbD_append]
  simp

theorem statusWord_fields (s : State) :
    s.statusWord.extractLsb 7 5 = 0 ∧ s.statusWord.extractLsb 11 8 = s.err.code ∧
      s.statusWord.extractLsb 15 12 = s.lastop ∧ s.statusWord.extractLsb 31 16 = 0 := by
  simp (disch := omega) only [State.statusWord, BitVec.extractLsb, BitVec.extractLsb'_append_eq_of_le,
    BitVec.extractLsb'_append_eq_of_add_le]
  simp

theorem idWord_fields (s : State) :
    s.idWord.extractLsb 15 0 = BitVec.ofNat 16 s.cfg.nsymMax ∧ s.idWord.extractLsb 23 16 = maxlen ∧
      s.idWord.extractLsb 31 24 = rev := by
  simp (disch := omega) only [State.idWord, BitVec.extractLsb, BitVec.extractLsb'_append_eq_of_le,
    BitVec.extractLsb'_append_eq_of_add_le]
  simp

theorem regWord_result (s : State) : s.regWord .result = 0#16 ++ s.rval :=
  BitVec.setWidth_eq_append (by decide)

/-- Settles O13: the flags by bit and the fields by range, with ERR's number read off its code. -/
theorem statusFields : Obligations.StatusFields := by
  unfold Obligations.StatusFields
  intro s
  obtain ⟨hbusy, htree, hresult, hhalted, hoverrun⟩ := statusWord_flags s
  obtain ⟨hlow, herr, hlastop, hhigh⟩ := statusWord_fields s
  refine ⟨hbusy.trans s.st.busy_eq, htree, hresult, hhalted.trans s.st.isHalted_eq, hoverrun, hlow, herr.trans ?_,
    hlastop, hhigh⟩
  cases s.err <;> rfl

/-! ### The parameters (00_scope.md R5) -/

theorem ExecCase.cfg_eq {s t : State} {i : Instr} (h : ExecCase s i t) : t.cfg = s.cfg := by cases h <;> rfl

/-- No step changes the parameters. -/
theorem step_cfg {s t : State} (h : step s = .next t) : t.cfg = s.cfg := by
  cases step_cases h with
  | reset _ => rfl
  | complete hb _ => rw [hb.buildComplete_frame]
  | traverse hb _ => rw [hb.traverse_frame]
  | read hn v => exact hn.cfg_eq
  | poll hn => exact hn.cfg_eq
  | ignored hn => exact hn.cfg_eq
  | overrun hw _ => exact hw.cfg_eq
  | illegal hw _ _ => exact hw.cfg_eq
  | command hw _ _ he => exact he.cfg_eq.trans hw.cfg_eq
  | nothing _ => rfl

/-- Settles O14: the parameters are what ID shows, and `step_cfg` keeps them. -/
theorem idRegisterConstant : Obligations.IdRegisterConstant := by
  unfold Obligations.IdRegisterConstant
  refine ⟨fun s hwf => ?_, fun s t h => by rw [State.idWord, State.idWord, step_cfg h]⟩
  obtain ⟨-, hmax⟩ := hwf
  obtain ⟨hlow, hmid, hhigh⟩ := idWord_fields s
  exact ⟨by rw [hlow]; exact Nat.mod_eq_of_lt (by omega), hmid, hhigh⟩

/-! ### The control state (10_state.md R22) -/

/-- Where a command leaves the control state: only BUILD and DECODE leave IDLE. -/
theorem ExecCase.st_cases {s t : State} {i : Instr} (h : ExecCase s i t) (hs : s.st = .idle) :
    t.st = .idle ∨
      (i = .build ∧ t.st = .building ∧ 2 ≤ s.nsym.toNat ∧ s.nsym.toNat ≤ s.cfg.nsymMax) ∨
      (i = .build ∧ t.st = .halted ∧ (s.nsym.toNat < 2 ∨ s.cfg.nsymMax < s.nsym.toNat)) ∨
      (i = .decode ∧ t.st = .decoding ∧ s.treeValid = true) := by
  cases h with
  | build h2 hmax => exact .inr (.inl ⟨rfl, rfl, h2, hmax⟩)
  | buildContract hc => exact .inr (.inr (.inl ⟨rfl, rfl, hc⟩))
  | decode ht => exact .inr (.inr (.inr ⟨rfl, rfl, ht⟩))
  | nop | setn | ldlen | rdlen | discard | rdnode => exact .inl hs
  | setnIndex | ldlenIndex | rdlenIndex | decodeNotree | rdnodeNotree | rdnodeIndex => exact .inl rfl

/-- A completion ends in IDLE, since BuildTree never raises CONTRACT. -/
theorem buildComplete_st (s : State) : s.buildComplete.st = .idle := by
  cases h : (buildPartition s).1 with
  | node n => rw [buildComplete_ok s h]
  | failed e =>
    rw [buildComplete_failed s h]
    rcases partition_failed _ _ _ _ h with rfl | rfl <;> rfl

/-- A traversal step that changes the control state ends DECODE, at an EOS or at a leaf. -/
theorem TraverseCase.st_cases {s t : State} (h : TraverseCase s t) :
    t.st = s.st ∨ (t.st = .idle ∧ (s.source.answer = .eos ∨
      ∃ b, s.source.answer = .bit b ∧ (slotOf (nodeAt s.nodes s.cur.toNat) b).1 = sent)) := by
  cases h with
  | leaf b ha hs => exact .inr ⟨rfl, .inr ⟨b, ha, hs⟩⟩
  | eos ha => exact .inr ⟨rfl, .inl ha⟩
  | child | pending => exact .inl rfl

/-- Settles O17, by the inversion of the step: each of its cases keeps st or is a row of the table. -/
theorem controlTransitions : Obligations.ControlTransitions := by
  unfold Obligations.ControlTransitions
  intro s t hstep hne
  cases step_cases hstep with
  | reset hr => exact .inr (.inr (.inr (.inr (.inr ⟨rfl, _, hr⟩))))
  | complete hb hst => exact .inr (.inr (.inl ⟨hst, buildComplete_st _, _, hb⟩))
  | @traverse rest hb hst =>
    have hend := (traverse_case rest).st_cases
    rw [hb.st_eq, hb.source_eq, hb.nodes_eq, hb.cur_eq] at hend
    obtain ⟨hidle, hanswer⟩ := hend.resolve_left hne
    exact .inr (.inr (.inr (.inr (.inl ⟨hst, hidle, ⟨rest, hb⟩, hanswer⟩))))
  | read hn v => exact absurd hn.st_eq hne
  | poll hn => exact absurd hn.st_eq hne
  | ignored hn => exact absurd hn.st_eq hne
  | overrun hw _ => exact absurd hw.st_eq hne
  | illegal _ hst _ => exact absurd hst.symm hne
  | @command w i rest _ hw hst hd he =>
    have hrest := he.st_cases (hw.st_eq.trans hst)
    rw [hw.nsym_eq, hw.cfg_eq, hw.treeValid_eq] at hrest
    rw [← encode_of_decodeWord hd] at hw
    rcases hrest with h | ⟨rfl, h, h2, hmax⟩ | ⟨rfl, h, hc⟩ | ⟨rfl, h, hv⟩
    · exact absurd (h.trans hst.symm) hne
    · exact .inl ⟨hst, h, h2, hmax, rest, hw⟩
    · exact .inr (.inl ⟨hst, h, hc, rest, hw⟩)
    · exact .inr (.inr (.inr (.inl ⟨hst, h, hv, rest, hw⟩)))
  | nothing _ => exact absurd rfl hne

/-! ### RVAL (10_state.md R24) -/

/-- The one command whose acceptance step writes RVAL is an RDLEN with its index in range. -/
theorem ExecCase.rval_cases {s t : State} {i : Instr} (h : ExecCase s i t) :
    t.rval = s.rval ∨
      ∃ j < s.cfg.nsymMax, i = .rdlen j ∧ t.resultValid = true ∧ t.st = s.st ∧ t.err = .ok := by
  cases h with
  | @rdlen j hj => exact .inr ⟨j, hj, rfl, rfl, rfl, rfl⟩
  | nop | setn | ldlen | build | decode | discard | rdnode => exact .inl rfl
  | setnIndex | ldlenIndex | rdlenIndex | buildContract | decodeNotree | rdnodeNotree | rdnodeIndex => exact .inl rfl

/-- A traversal step writes RVAL only where it ends at a leaf. -/
theorem TraverseCase.rval_cases {s t : State} (h : TraverseCase s t) :
    t.rval = s.rval ∨ (t.resultValid = true ∧ t.st = .idle) := by
  cases h with
  | leaf => exact .inr ⟨rfl, rfl⟩
  | child | eos | pending => exact .inl rfl

/-- Settles O19, by the inversion of the step: only a leaf, an RDLEN in range and reset write RVAL. -/
theorem resultWrittenOnlyOnSuccess : Obligations.ResultWrittenOnlyOnSuccess := by
  unfold Obligations.ResultWrittenOnlyOnSuccess
  refine ⟨regWord_result, fun s t hstep hne => ?_⟩
  cases step_cases hstep with
  | reset hr => exact .inl ⟨_, hr⟩
  | complete hb _ => exact absurd (by rw [hb.buildComplete_frame]) hne
  | @traverse rest hb hst =>
    have hleaf := (traverse_case rest).rval_cases
    rw [hb.rval_eq] at hleaf
    obtain ⟨hvalid, hidle⟩ := hleaf.resolve_left hne
    exact .inr ⟨hvalid, hidle, .inl ⟨hst, rest, hb⟩⟩
  | read hn v => exact absurd hn.rval_eq hne
  | poll hn => exact absurd hn.rval_eq hne
  | ignored hn => exact absurd hn.rval_eq hne
  | overrun hw _ => exact absurd hw.rval_eq hne
  | illegal hw _ _ => exact absurd hw.rval_eq hne
  | @command w i rest _ hw hst hd he =>
    have hrdlen := he.rval_cases
    rw [hw.rval_eq, hw.cfg_eq, hw.st_eq] at hrdlen
    obtain ⟨j, hj, rfl, hvalid, hidle, herr⟩ := hrdlen.resolve_left hne
    rw [← encode_of_decodeWord hd] at hw
    exact .inr ⟨hvalid, hidle.trans hst, .inr ⟨hst, herr, j, rest, hj, hw⟩⟩
  | nothing _ => exact absurd rfl hne

/-! ### The tree (10_state.md R33, R38) -/

/-- `t` has the tree of `s`: TREE_VALID, NNODES and NODES. -/
def SameTree (s t : State) : Prop := t.treeValid = s.treeValid ∧ t.nnodes = s.nnodes ∧ t.nodes = s.nodes

theorem HostNext.sameTree {s rest : State} {op : HostOp} (h : HostNext s op rest) : SameTree s rest :=
  ⟨h.treeValid_eq, h.nnodes_eq, h.nodes_eq⟩

/-- Only BUILD and DISCARD touch the tree, and they drop it. -/
theorem ExecCase.tree_cases {s t : State} {i : Instr} (h : ExecCase s i t) :
    SameTree s t ∨ (t.treeValid = false ∧ (i = .build ∨ i = .discard)) := by
  cases h with
  | build | buildContract => exact .inr ⟨rfl, .inl rfl⟩
  | discard => exact .inr ⟨rfl, .inr rfl⟩
  | nop | setn | ldlen | rdlen | decode | rdnode => exact .inl ⟨rfl, rfl, rfl⟩
  | setnIndex | ldlenIndex | rdlenIndex | decodeNotree | rdnodeNotree | rdnodeIndex => exact .inl ⟨rfl, rfl, rfl⟩

/-- What a step can do to the tree: leave it, drop it, or complete a BUILD. -/
theorem step_tree_cases {s t : State} (hstep : step s = .next t) :
    SameTree s t ∨
      (t.treeValid = false ∧ (ResetNext s ∨ (s.st = .idle ∧
        ∃ rest, WritesCommand s 0x40000000#32 rest ∨ WritesCommand s 0x60000000#32 rest))) ∨
      (s.st = .building ∧ ∃ rest, BlockNext s rest ∧ t = rest.buildComplete) := by
  cases step_cases hstep with
  | reset hr => exact .inr (.inl ⟨rfl, .inl ⟨_, hr⟩⟩)
  | complete hb hst => exact .inr (.inr ⟨hst, _, hb, rfl⟩)
  | traverse hb _ => rw [hb.traverse_frame]; exact .inl ⟨rfl, rfl, rfl⟩
  | read hn v => exact .inl hn.sameTree
  | poll hn => exact .inl hn.sameTree
  | ignored hn => exact .inl hn.sameTree
  | overrun hw _ => exact .inl hw.sameTree
  | illegal hw _ _ => exact .inl hw.sameTree
  | @command w i rest _ hw hst hd he =>
    rcases he.tree_cases with ⟨hv, hn, hns⟩ | ⟨hv, hi⟩
    · exact .inl ⟨hv.trans hw.treeValid_eq, hn.trans hw.nnodes_eq, hns.trans hw.nodes_eq⟩
    · rw [← encode_of_decodeWord hd] at hw
      refine .inr (.inl ⟨hv, .inr ⟨hst, rest, ?_⟩⟩)
      rcases hi with rfl | rfl
      · exact .inl hw
      · exact .inr hw
  | nothing _ => exact .inl ⟨rfl, rfl, rfl⟩

/-- A completion that sets TREE_VALID raises no error. -/
theorem buildComplete_err_of_treeValid {s : State} (hs : s.treeValid = false) (h : s.buildComplete.treeValid = true) :
    s.buildComplete.err = s.err := by
  cases hp : (buildPartition s).1 with
  | node n => rw [buildComplete_ok s hp]
  | failed e =>
    rw [buildComplete_failed s hp] at h
    exact absurd (hs.symm.trans h) Bool.false_ne_true

/-- Settles O20, by what a step can do to the tree; the invariant says that a running BUILD has no tree and no error. -/
theorem treeImmutableWhileValid : Obligations.TreeImmutableWhileValid := by
  unfold Obligations.TreeImmutableWhileValid
  intro s t hinv hstep
  rcases step_tree_cases hstep with ⟨hv, hn, hns⟩ | ⟨hv, hdrop⟩ | ⟨hst, rest, hb, rfl⟩
  · exact ⟨fun h0 h1 => by simp [hv, h0] at h1, fun h1 h0 => by simp [hv, h1] at h0,
      fun _ _ => ⟨hn, fun i => by rw [hns]⟩⟩
  · exact ⟨fun _ h1 => by simp [hv] at h1, fun _ _ => hdrop, fun _ h1 => by simp [hv] at h1⟩
  · obtain ⟨-, hno, hok, -, -⟩ := hinv.building hst
    refine ⟨fun _ h1 => ⟨hst, buildComplete_st rest, ?_⟩, fun h1 => by simp [hno] at h1, fun h1 => by simp [hno] at h1⟩
    rw [buildComplete_err_of_treeValid (hb.treeValid_eq.trans hno) h1, hb.err_eq, hok]

/-- `s` with another node array. -/
def State.withNodes (s : State) (ns : List (Nat × Node)) : State := { s with nodes := ns }

/-- The outcome `o` with another node array in its next state. -/
def outcomeWithNodes (ns : List (Nat × Node)) :
    Host.Outcome State Fault Refusal → Host.Outcome State Fault Refusal
  | .next t => .next (t.withNodes ns)
  | .fault r => .fault r
  | .refused r => .refused r

/-- Without a tree no command reads the node array: RDNODE and DECODE raise NOTREE. -/
theorem exec_withNodes {s : State} (hv : s.treeValid = false) (i : Instr) (ns : List (Nat × Node)) :
    exec i (s.withNodes ns) = outcomeWithNodes ns (exec i s) := by
  have hv' : (s.withNodes ns).treeValid = false := hv
  cases i with
  | nop | discard => rfl
  | decode => rw [exec, exec, execDecode_notree s hv, execDecode_notree _ hv']; rfl
  | rdnode j => rw [exec, exec, execRdnode_notree s hv, execRdnode_notree _ hv']; rfl
  | setn n =>
    simp only [exec, execSetn, apply_ite (outcomeWithNodes ns)]
    rfl
  | ldlen j l =>
    simp only [exec, execLdlen, apply_ite (outcomeWithNodes ns)]
    rfl
  | rdlen j =>
    simp only [exec, execRdlen, apply_ite (outcomeWithNodes ns)]
    rfl
  | build =>
    simp only [exec, execBuild, apply_ite (outcomeWithNodes ns)]
    rfl

theorem writeCommand_withNodes {s : State} (hv : s.treeValid = false) (w : Word) (ns : List (Nat × Node)) :
    writeCommand w (s.withNodes ns) = outcomeWithNodes ns (writeCommand w s) := by
  cases hst : s.st with
  | halted =>
    have hst' : (s.withNodes ns).st = .halted := hst
    rw [writeCommand_halted hst, writeCommand_halted hst', outcomeWithNodes]
  | building | decoding =>
    have hbusy : s.st = .building ∨ s.st = .decoding := by simp [hst]
    have hbusy' : (s.withNodes ns).st = .building ∨ (s.withNodes ns).st = .decoding := hbusy
    rw [writeCommand_busy hbusy, writeCommand_busy hbusy']
    rfl
  | idle =>
    have hst' : (s.withNodes ns).st = .idle := hst
    cases hd : decodeWord w with
    | ok i => rw [writeCommand_ok hst hd, writeCommand_ok hst' hd, exec_withNodes hv]
    | error e => rw [writeCommand_illegal hst hd, writeCommand_illegal hst' hd]; rfl

theorem writeRegister_withNodes {s : State} (hv : s.treeValid = false) (r : HostReg) (w : Word)
    (ns : List (Nat × Node)) :
    writeRegister r w (s.withNodes ns) = outcomeWithNodes ns (writeRegister r w s) := by
  cases r with
  | cmd => exact writeCommand_withNodes hv w ns
  | status | result | nsym | nnodes | bitcnt | nodeIdx | nodeVal | id | reserved => rfl

/-- No register shows the node array (20_memory.md R61), and a command reads it only with a tree. -/
theorem runHostOp_withNodes {s : State} (hv : s.treeValid = false) (op : HostOp) (ns : List (Nat × Node)) :
    runHostOp op (s.withNodes ns) = outcomeWithNodes ns (runHostOp op s) := by
  have hcfg : (s.withNodes ns).cfg = s.cfg := rfl
  cases op with
  | memRead addr size =>
    simp only [runHostOp, hcfg]
    cases registerAt s.cfg addr size with
    | none => rfl
    | some r => cases r <;> rfl
  | memWrite addr size w =>
    simp only [runHostOp, hcfg]
    cases registerAt s.cfg addr size with
    | none => rfl
    | some r => exact writeRegister_withNodes hv r w ns
  | wait =>
    simp only [runHostOp, apply_ite (outcomeWithNodes ns)]
    rfl

theorem hostMove_withNodes {s : State} (hv : s.treeValid = false) (ns : List (Nat × Node)) :
    hostMove (s.withNodes ns) = outcomeWithNodes ns (hostMove s) := by
  have hhost : (s.withNodes ns).host = s.host := rfl
  cases h : s.host with
  | nil => simp only [hostMove, hhost, h, outcomeWithNodes]
  | cons op ops =>
    simp only [hostMove, hhost, h]
    exact runHostOp_withNodes (s := { s with host := ops }) hv op ns

/-- A block that is not busy has no pending step (60_exceptions.md R235, R222). -/
theorem blockMove_of_not_busy {s : State} (h : s.st.busy = false) : s.blockMove = s := by
  cases hst : s.st with
  | idle | halted => simp only [State.blockMove, hst]
  | building | decoding => simp [hst, Ctl.busy] at h

theorem takeTurn_withNodes {s : State} (hv : s.treeValid = false) (hb : s.st.busy = false) {turn : Turn}
    (hturn : turn ≠ .reset) (ns : List (Nat × Node)) :
    takeTurn turn (s.withNodes ns) = outcomeWithNodes ns (takeTurn turn s) := by
  cases turn with
  | reset => exact absurd rfl hturn
  | host => exact hostMove_withNodes hv ns
  | block =>
    have hb' : (s.withNodes ns).st.busy = false := hb
    simp only [takeTurn, blockMove_of_not_busy hb, blockMove_of_not_busy hb', outcomeWithNodes]

theorem defaultMove_withNodes {s : State} (hv : s.treeValid = false) (hb : s.st.busy = false)
    (ns : List (Nat × Node)) :
    defaultMove (s.withNodes ns) = outcomeWithNodes ns (defaultMove s) := by
  have hb' : (s.withNodes ns).st.busy = false := hb
  have hhost : (s.withNodes ns).host = s.host := rfl
  cases h : s.host with
  | cons op ops =>
    simp only [defaultMove, hb, hb', hhost, h]
    exact hostMove_withNodes hv ns
  | nil =>
    simp only [defaultMove, hb, hb', hhost, h, apply_ite (outcomeWithNodes ns)]
    rfl

/-- Without a tree or a command in progress, every step but the reset input's carries the node array along unread. -/
theorem step_withNodes {s : State} (hv : s.treeValid = false) (hb : s.st.busy = false) (hr : ¬ ResetNext s)
    (ns : List (Nat × Node)) : step (s.withNodes ns) = outcomeWithNodes ns (step s) := by
  have hturns : (s.withNodes ns).turns = s.turns := rfl
  cases h : s.turns with
  | nil =>
    simp only [step, hturns, h]
    exact defaultMove_withNodes hv hb ns
  | cons turn ts =>
    simp only [step, hturns, h]
    exact takeTurn_withNodes (s := { s with turns := ts }) hv hb (fun ht => hr ⟨ts, ht ▸ h⟩) ns

/-- Settles O21: the reset input empties the node array, and every other step carries it along. -/
theorem nodesUnreadWithoutTree : Obligations.NodesUnreadWithoutTree := by
  unfold Obligations.NodesUnreadWithoutTree
  intro s t ns hv hst hstep
  have hb : s.st.busy = false := by rcases hst with h | h <;> rw [h] <;> rfl
  by_cases hr : ResetNext s
  · obtain ⟨ts, hts⟩ := hr
    rw [step_resetNext hts] at hstep
    cases hstep
    exact ⟨_, step_resetNext hts, rfl⟩
  · have hcarried : step (s.withNodes ns) = .next (t.withNodes ns) := by
      rw [step_withNodes hv hb hr, hstep, outcomeWithNodes]
    exact ⟨t.withNodes ns, hcarried, rfl⟩

end Sys2Proof.Machine
end

section
/-! The obligations of 20_memory.md: the register map. -/

namespace Sys2Proof.Machine

/-! ### The host's reads and writes by word number (20_memory.md R61 to R63) -/

/-- What a register shows does not depend on the turn and the host operation that a step takes off. -/
theorem HostNext.regWord_eq {s rest : State} {op : HostOp} (h : HostNext s op rest) (r : HostReg) :
    rest.regWord r = s.regWord r := by
  rw [h.rest_eq]
  cases r <;> rfl

theorem step_memRead {s rest : State} {k : Nat} (hk : k < 16)
    (h : HostNext s (.memRead (s.cfg.htbBase + 4 * k) 4) rest) :
    step s = .next (rest.hostGets (s.regWord (HostReg.ofIndex k))) := by
  rw [step_hostNext h]
  simp only [runHostOp, h.cfg_eq, registerAt_index s.cfg hk, h.regWord_eq]

theorem step_memWrite {s rest : State} {k : Nat} {v : Word} (hk : k < 16)
    (h : HostNext s (.memWrite (s.cfg.htbBase + 4 * k) 4 v) rest) :
    step s = writeRegister (HostReg.ofIndex k) v rest := by
  rw [step_hostNext h]
  simp only [runHostOp, h.cfg_eq, registerAt_index s.cfg hk]

/-- The read column of R61's table; the words from 9 on are reserved. -/
theorem regWord_ofIndex (s : State) (k : Nat) :
    s.regWord (HostReg.ofIndex k) =
      if k = 1 then s.statusWord
      else if k = 2 then s.rval.setWidth 32
      else if k = 3 then s.nsym.setWidth 32
      else if k = 4 then s.nnodes.setWidth 32
      else if k = 5 then s.bitcnt.setWidth 32
      else if k = 6 then s.nodeIdx
      else if k = 7 then s.nodeVal
      else if k = 8 then s.idWord
      else 0#32 := by
  match k with
  | 0 | 1 | 2 | 3 | 4 | 5 | 6 | 7 | 8 => rfl
  | n + 9 => simp [HostReg.ofIndex, State.regWord]

theorem writeRegister_of_ne_cmd {r : HostReg} (h : r ≠ .cmd) (v : Word) (s : State) :
    writeRegister r v s = .next s := by
  cases r with
  | cmd => exact absurd rfl h
  | status | result | nsym | nnodes | bitcnt | nodeIdx | nodeVal | id | reserved => rfl

theorem writeRegister_ofIndex (k : Nat) (v : Word) (s : State) :
    writeRegister (HostReg.ofIndex k) v s = if k = 0 then writeCommand v s else .next s := by
  split
  · next hk => subst hk; rfl
  · next hk => exact writeRegister_of_ne_cmd (mt ofIndex_eq_cmd hk) v s

/-- Settles O11: word `k` of the window reaches register `k`, which is read by R61's table and ignores a write unless
it is CMD. -/
theorem registerMap : Obligations.RegisterMap := by
  unfold Obligations.RegisterMap
  intro s rest k hk
  constructor
  · intro h
    rw [step_memRead hk h, regWord_ofIndex, State.hostGets, h.hostReads_eq]
  · intro v h
    rw [step_memWrite hk h, writeRegister_ofIndex]

end Sys2Proof.Machine
end

section
/-! The obligations of 30_encoding.md: the decoder and the encoder, the illegal words, the assembler, and WAIT. -/

namespace Sys2Proof

/-! ### Decoding what was encoded, and encoding what was decoded (30_encoding.md R80 to R82, R86) -/

theorem plainCommand_packWord (i : Instr) (op : BitVec 4) : plainCommand i (packWord op 0#8 0#16) = .ok i := by
  simp [plainCommand]

theorem indexCommand_packWord (f : Nat → Instr) (op : BitVec 4) {n : Nat} (hn : xFits n = true) :
    indexCommand f (packWord op 0#8 (BitVec.ofNat 16 n)) = .ok (f n) := by
  rw [indexCommand, fieldX_packWord, toNat_ofNat_of_xFits hn, fieldL_packWord, if_pos rfl]

theorem decodeWord_encode {i : Instr} (h : i.WellFormed) : decodeWord (encode i) = .ok i := by
  cases i with
  | nop | build | decode | discard => simp [encode, decodeWord, plainCommand_packWord]
  | setn n | rdlen n | rdnode n => simp [encode, decodeWord, indexCommand_packWord _ _ h]
  | ldlen i l =>
    obtain ⟨hi, hl⟩ := Bool.and_eq_true_iff.mp h
    simp [encode, decodeWord, toNat_ofNat_of_xFits hi, toNat_ofNat_of_lFits hl]

theorem wf_of_decodeWord {w : Word} {i : Instr} (h : decodeWord w = .ok i) : i.WellFormed := by
  obtain ⟨h8, hz⟩ := decodeWord_ok h
  unfold decodeWord at h
  rw [if_neg (by omega), if_neg (by simp [hz])] at h
  -- `split` numbers its cases by the OP values 0 to 7, and then the rest
  split at h
  case h_3 => cases h; exact Bool.and_eq_true_iff.mpr ⟨xFits_fieldX w, lFits_fieldL w⟩
  case h_9 => cases h
  case h_1 | h_5 | h_6 | h_7 => obtain ⟨rfl, -, -⟩ := plainCommand_ok h; rfl
  case h_2 | h_4 | h_8 => obtain ⟨rfl, -⟩ := indexCommand_ok h; exact xFits_fieldX w

theorem decodeWord_ok_iff {w : Word} {i : Instr} : decodeWord w = .ok i ↔ i.WellFormed ∧ encode i = w :=
  ⟨fun h => ⟨wf_of_decodeWord h, encode_of_decodeWord h⟩, by rintro ⟨hwf, rfl⟩; exact decodeWord_encode hwf⟩

/-- Settles O1, command by command, from the fields of a packed word. -/
theorem decodeEncode : Obligations.DecodeEncode := by
  unfold Obligations.DecodeEncode
  exact fun _ h => decodeWord_encode h

/-- Settles O2: a word that decodes is packed from the fields that its command's word has. -/
theorem encodeDecode : Obligations.EncodeDecode := by
  unfold Obligations.EncodeDecode
  exact fun _ _ h => decodeWord_ok_iff.mp h

/-! ### Rows by mask and match (30_encoding.md R82) -/

theorem packWord_eq_iff {op : BitVec 4} {l : Byte} {x : Half} {w : Word} :
    packWord op l x = w ↔ fieldOp w = op ∧ fieldZ w = 0#4 ∧ fieldL w = l ∧ fieldX w = x := by
  constructor
  · rintro rfl
    simp
  · rintro ⟨rfl, hz, rfl, rfl⟩
    exact packWord_fields w hz

/-- The mask `0xFF000000` keeps OP and Z. -/
theorem and_maskOpZ_eq_iff {w : Word} {op : BitVec 4} :
    w &&& 0xFF000000#32 = packWord op 0 0 ↔ fieldOp w = op ∧ fieldZ w = 0#4 := by
  have keep : ∀ b : BitVec 4, b &&& 15#4 = b := fun _ => BitVec.and_allOnes
  rw [eq_comm, packWord_eq_iff]
  simp [fieldOp, fieldZ, fieldL, fieldX, BitVec.extractLsb'_and, keep]

/-- The mask `0xFFFF0000` keeps OP, Z and L. -/
theorem and_maskOpZL_eq_iff {w : Word} {op : BitVec 4} :
    w &&& 0xFFFF0000#32 = packWord op 0 0 ↔ fieldOp w = op ∧ fieldZ w = 0#4 ∧ fieldL w = 0#8 := by
  have keep : ∀ b : BitVec 4, b &&& 15#4 = b := fun _ => BitVec.and_allOnes
  have keepL : ∀ b : BitVec 8, b &&& 255#8 = b := fun _ => BitVec.and_allOnes
  rw [eq_comm, packWord_eq_iff]
  simp [fieldOp, fieldZ, fieldL, fieldX, BitVec.extractLsb'_and, keep, keepL]

theorem eq_toNat_fieldX_iff {w : Word} {n : Nat} :
    n = (fieldX w).toNat ↔ xFits n = true ∧ fieldX w = BitVec.ofNat 16 n := by
  rw [BitVec.nat_eq_toNat, xFits, decide_eq_true_eq]

theorem eq_toNat_fieldL_iff {w : Word} {l : Nat} :
    l = (fieldL w).toNat ↔ lFits l = true ∧ fieldL w = BitVec.ofNat 8 l := by
  rw [BitVec.nat_eq_toNat, lFits, decide_eq_true_eq]

/-- A row without operands. -/
theorem decodeWord_eq_plain_iff {w : Word} (i : Instr) (op : BitVec 4) (hwf : i.WellFormed)
    (he : encode i = packWord op 0 0) : decodeWord w = .ok i ↔ w &&& 0xFFFFFFFF#32 = packWord op 0 0 := by
  have keep : w &&& 0xFFFFFFFF#32 = w := BitVec.and_allOnes
  rw [decodeWord_ok_iff, he, keep, eq_comm, and_iff_right hwf]

/-- A row whose one operand is X. -/
theorem decodeWord_eq_index_iff {w : Word} (f : Nat → Instr) (op : BitVec 4) (hwf : ∀ n, (f n).wf = xFits n)
    (he : ∀ n, encode (f n) = packWord op 0 (BitVec.ofNat 16 n)) (n : Nat) :
    decodeWord w = .ok (f n) ↔ w &&& 0xFFFF0000#32 = packWord op 0 0 ∧ n = (fieldX w).toNat := by
  rw [decodeWord_ok_iff, Instr.WellFormed, hwf, he, packWord_eq_iff, and_maskOpZL_eq_iff, eq_toNat_fieldX_iff]
  tauto

theorem decodeWord_eq_ldlen_iff {w : Word} (i l : Nat) :
    decodeWord w = .ok (.ldlen i l) ↔
      w &&& 0xFF000000#32 = packWord 0x2#4 0 0 ∧ i = (fieldX w).toNat ∧ l = (fieldL w).toNat := by
  rw [decodeWord_ok_iff, Instr.WellFormed, Instr.wf, Bool.and_eq_true_iff, encode, packWord_eq_iff, and_maskOpZ_eq_iff,
    eq_toNat_fieldX_iff, eq_toNat_fieldL_iff]
  tauto

theorem decodeWord_reserved {w : Word} (h : 8 ≤ (fieldOp w).toNat) : decodeWord w = .error .reservedOp := if_pos h

/-- Settles O3: a row's match is its command's word with zero operands, and its mask keeps the other fields. -/
theorem wordSpellsRow : Obligations.WordSpellsRow := by
  unfold Obligations.WordSpellsRow
  intro w
  exact ⟨decodeWord_eq_plain_iff .nop 0x0#4 rfl rfl,
    decodeWord_eq_index_iff .setn 0x1#4 (fun _ => rfl) (fun _ => rfl),
    decodeWord_eq_ldlen_iff,
    decodeWord_eq_index_iff .rdlen 0x3#4 (fun _ => rfl) (fun _ => rfl),
    decodeWord_eq_plain_iff .build 0x4#4 rfl rfl,
    decodeWord_eq_plain_iff .decode 0x5#4 rfl rfl,
    decodeWord_eq_plain_iff .discard 0x6#4 rfl rfl,
    decodeWord_eq_index_iff .rdnode 0x7#4 (fun _ => rfl) (fun _ => rfl),
    decodeWord_reserved⟩

/-! ### The words as sums (30_encoding.md R89) -/

theorem toNat_packWord (op : BitVec 4) (l : Byte) (x : Half) :
    (packWord op l x).toNat = op.toNat * 2 ^ 28 + l.toNat * 2 ^ 16 + x.toNat := by
  rw [packWord, BitVec.toNat_append, BitVec.toNat_append, BitVec.toNat_append, BitVec.toNat_zero, Nat.or_zero,
    ← Nat.shiftLeft_add_eq_or_of_lt x.isLt, ← Nat.shiftLeft_add_eq_or_of_lt l.isLt]
  simp only [Nat.shiftLeft_eq]
  omega

theorem packWord_or (op op' : BitVec 4) (l l' : Byte) (x x' : Half) :
    packWord op l x ||| packWord op' l' x' = packWord (op ||| op') (l ||| l') (x ||| x') := by
  simp only [packWord]
  refine BitVec.or_append.trans ?_
  rw [BitVec.or_append, BitVec.or_append, BitVec.or_zero]

theorem ofNat_eq_packWord {x : Nat} (h : x < 65536) : BitVec.ofNat 32 x = packWord 0#4 0#8 (BitVec.ofNat 16 x) := by
  refine BitVec.eq_of_toNat_eq ?_
  simp only [toNat_packWord, BitVec.toNat_ofNat]
  omega

theorem ofNat_shiftLeft_eq_packWord {l : Nat} (h : l < 256) :
    BitVec.ofNat 32 l <<< 16 = packWord 0#4 (BitVec.ofNat 8 l) 0#16 := by
  refine BitVec.eq_of_toNat_eq ?_
  simp only [toNat_packWord, BitVec.toNat_shiftLeft, BitVec.toNat_ofNat, Nat.shiftLeft_eq]
  omega

theorem encode_index_eq_or (f : Nat → Instr) (op : BitVec 4)
    (he : ∀ n, encode (f n) = packWord op 0 (BitVec.ofNat 16 n)) :
    ∀ n < 65536, encode (f n) = packWord op 0 0 ||| BitVec.ofNat 32 n := by
  intro n hn
  rw [he, ofNat_eq_packWord hn, packWord_or]
  simp

theorem encode_ldlen_eq_or :
    ∀ i < 65536, ∀ l < 256,
      encode (.ldlen i l) = packWord 0x2#4 0 0 ||| (BitVec.ofNat 32 l <<< 16) ||| BitVec.ofNat 32 i := by
  intro i hi l hl
  rw [encode, ofNat_eq_packWord hi, ofNat_shiftLeft_eq_packWord hl, packWord_or, packWord_or]
  simp

/-- Settles O4: each operand is a word with that one field, and the fields of a sum of such words are the operands. -/
theorem wordsOfCommands : Obligations.WordsOfCommands := by
  unfold Obligations.WordsOfCommands
  exact ⟨rfl, rfl, rfl, rfl, encode_index_eq_or .setn 0x1#4 fun _ => rfl, encode_ldlen_eq_or,
    encode_index_eq_or .rdlen 0x3#4 fun _ => rfl, encode_index_eq_or .rdnode 0x7#4 fun _ => rfl, rfl⟩

/-! ### Illegal words (30_encoding.md R83, R84, R86) -/

theorem lowFields_eq_zero_iff (w : Word) : w.extractLsb 23 0 = 0 ↔ fieldL w = 0#8 ∧ fieldX w = 0#16 := by
  have hcat : w.extractLsb 23 0 = fieldL w ++ fieldX w :=
    (BitVec.extractLsb'_append_extractLsb'_eq_extractLsb' (start₁ := 0) (len₁ := 16) (len₂ := 8) rfl).symm
  rw [hcat]
  constructor
  · intro h
    have hL := congrArg (BitVec.extractLsb' 16 8) h
    have hX := congrArg (BitVec.extractLsb' 0 16) h
    rw [BitVec.extractLsb'_append_eq_left] at hL
    rw [BitVec.extractLsb'_append_eq_right] at hX
    exact ⟨hL, hX⟩
  · rintro ⟨hL, hX⟩
    rw [hL, hX, BitVec.zero_append_zero]
    rfl

theorem plainCommand_error_iff (i : Instr) (w : Word) :
    (∃ e, plainCommand i w = .error e) ↔ w.extractLsb 23 0 ≠ 0 := by
  rw [plainCommand, Ne, lowFields_eq_zero_iff]
  split
  · next h => simp [h]
  · next h => simp [h]

theorem indexCommand_error_iff (f : Nat → Instr) (w : Word) :
    (∃ e, indexCommand f w = .error e) ↔ fieldL w ≠ 0#8 := by
  rw [indexCommand]
  split
  · next h => simp [h]
  · next h => simp [h]

theorem decodeWord_error_iff (w : Word) :
    (∃ e, decodeWord w = .error e) ↔
      8 ≤ (fieldOp w).toNat ∨ fieldZ w ≠ 0#4 ∨
        ((fieldOp w).toNat ∈ [0, 4, 5, 6] ∧ w.extractLsb 23 0 ≠ 0) ∨
        ((fieldOp w).toNat ∈ [1, 3, 7] ∧ fieldL w ≠ 0#8) := by
  unfold decodeWord
  split
  · next h8 => simp [h8]
  split
  · next hz => simp [hz]
  next h8 hz =>
  -- the cases are the OP values 0 to 7, and then the rest
  split
  case h_9 => simp only [imp_false] at *; omega
  case h_3 hop => simp [hop, hz]
  case h_1 hop | h_5 hop | h_6 hop | h_7 hop => simp [plainCommand_error_iff, hop, hz]
  case h_2 hop | h_4 hop | h_8 hop => simp [indexCommand_error_iff, hop, hz]

end Sys2Proof

namespace Sys2Proof.Machine

theorem State.illegal_of_idle {s : State} (h : s.st = .idle) (op : BitVec 4) :
    s.illegal op = { s with lastop := op, err := .illegal, resultValid := false } := by
  have hctl : ctlAfter .illegal = s.st := h.symm
  rw [State.illegal, State.raise, hctl]
  rfl

/-- Settles O6: the reasons for an error, and what an illegal word does to the idle block. -/
theorem illegalWordsRaiseIllegal : Obligations.IllegalWordsRaiseIllegal := by
  unfold Obligations.IllegalWordsRaiseIllegal
  intro w
  refine ⟨decodeWord_error_iff w, fun s rest hst hw herr => ?_⟩
  obtain ⟨e, he⟩ := herr
  have hrest : rest.st = .idle := hw.st_eq.trans hst
  rw [step_writesCommand hw, writeCommand_illegal hrest he, State.illegal_of_idle hrest]
  rfl

/-! ### The assembler (30_encoding.md R87) -/

theorem wf_of_assembleLine {l : List Char} {i : Instr} (h : assembleLine l = .ok (some i)) : i.WellFormed := by
  unfold assembleLine at h
  -- a blank line, operands that are no numbers, and a form that is read or refused
  split at h
  · cases h
  split at h
  · cases h
  split at h
  · split at h
    · next hwf => cases h; exact hwf
    · cases h
  · cases h

theorem assembleLine_comment (l c : List Char) (h : ';' ∉ l) : assembleLine (l ++ ';' :: c) = assembleLine l := by
  rw [assembleLine, assembleLine, lineBody_comment l c h]

theorem assembleForm_ok {m : List Char} {xs : List Nat} {i : Instr} (h : formOf m xs = .ok i) :
    assembleForm m xs = if i.wf then .ok (some i) else .error .outOfRange := by
  rw [assembleForm, h]

theorem xFits_iff_le {x : Nat} : xFits x = true ↔ x ≤ 65535 := by simp [xFits, Nat.lt_succ_iff]

theorem lFits_iff_le {l : Nat} : lFits l = true ↔ l ≤ 255 := by simp [lFits, Nat.lt_succ_iff]

/-- A form whose one operand is X. -/
theorem assembleLine_index {m t : List Char} (f : Nat → Instr) {n : Nat} (hm : m ≠ [])
    (hm' : ∀ c ∈ m, c ≠ ' ' ∧ c ≠ ';') (hf : formOf m [n] = .ok (f n)) (hwf : (f n).wf = xFits n)
    (h : SpellsNumber t n) :
    assembleLine (m ++ ' ' :: t) = if n ≤ 65535 then .ok (some (f n)) else .error .outOfRange := by
  simp only [assembleLine_one hm hm' h, assembleForm_ok hf, hwf, xFits_iff_le]

theorem assembleLine_ldlen {t u : List Char} {i l : Nat} (h : SpellsNumber t i) (h' : SpellsNumber u l) :
    assembleLine (['L', 'D', 'L', 'E', 'N'] ++ ' ' :: (t ++ ',' :: ' ' :: u)) =
      if i ≤ 65535 ∧ l ≤ 255 then .ok (some (.ldlen i l)) else .error .outOfRange := by
  have hf : formOf ['L', 'D', 'L', 'E', 'N'] [i, l] = .ok (.ldlen i l) := rfl
  simp only [assembleLine_two (m := ['L', 'D', 'L', 'E', 'N']) (by simp) (by simp) h h', assembleForm_ok hf, Instr.wf,
    Bool.and_eq_true, xFits_iff_le, lFits_iff_le]

/-- Settles O7: each form is its mnemonic with its operands, and what is accepted is well-formed, so O1 applies. -/
theorem assembledLineHasEncoding : Obligations.AssembledLineHasEncoding := by
  unfold Obligations.AssembledLineHasEncoding
  refine ⟨fun l i h => ⟨wf_of_assembleLine h, decodeWord_encode (wf_of_assembleLine h)⟩, rfl, rfl, rfl, rfl,
    fun t n h => ⟨?_, ?_, ?_⟩, fun t u i l h h' => ?_, assembleLine_comment⟩
  · exact assembleLine_index (m := ['S', 'E', 'T', 'N']) .setn (by simp) (by simp) rfl rfl h
  · exact assembleLine_index (m := ['R', 'D', 'L', 'E', 'N']) .rdlen (by simp) (by simp) rfl rfl h
  · exact assembleLine_index (m := ['R', 'D', 'N', 'O', 'D', 'E']) .rdnode (by simp) (by simp) rfl rfl h
  · simpa using assembleLine_ldlen h h'

/-! ### WAIT (30_encoding.md R88) -/

/-- Settles O54: WAIT looks at the BUSY bit of the STATUS word that it hands to the host. -/
theorem waitPollsStatus : Obligations.WaitPollsStatus := by
  unfold Obligations.WaitPollsStatus
  intro s rest h
  obtain ⟨hbusy, -⟩ := statusWord_flags s
  have hstatus : rest.statusWord = s.statusWord := h.regWord_eq .status
  have hst : rest.st.busy = s.st.busy := by rw [h.st_eq]
  rw [hbusy, step_hostNext h, ← hst, ← hstatus, ← h.hostReads_eq]
  exact ⟨fun hb => if_pos hb, fun hb => if_neg (ne_true_of_eq_false hb)⟩

end Sys2Proof.Machine
end

section
/-! The obligations of 40_config_commands.md: NOP, SETN, LDLEN, RDLEN and DISCARD. -/

namespace Sys2Proof.Machine

/-! ### NOP and OVERRUN (40_config_commands.md R100) -/

/-- No acceptance step but NOP's writes OVERRUN. -/
theorem ExecCase.overrun_eq {s t : State} {i : Instr} (h : ExecCase s i t) (hne : i ≠ .nop) :
    t.overrun = s.overrun := by
  cases h with
  | nop => exact absurd rfl hne
  | setn | ldlen | rdlen | build | decode | discard | rdnode => rfl
  | setnIndex | ldlenIndex | rdlenIndex | buildContract | decodeNotree | rdnodeNotree | rdnodeIndex => rfl

theorem decodeWord_eq_nop_iff {w : Word} : decodeWord w = .ok .nop ↔ w = 0x00000000#32 := by
  have hwf : Instr.nop.WellFormed := rfl
  have hword : encode .nop = 0x00000000#32 := rfl
  rw [decodeWord_ok_iff, and_iff_right hwf, hword, eq_comm]

/-- Settles O23: NOP's own step, its one word, and the outcomes of every other command. -/
theorem nopClearsOverrunOnly : Obligations.NopClearsOverrunOnly := by
  unfold Obligations.NopClearsOverrunOnly
  exact ⟨execNop_eq, fun _ => decodeWord_eq_nop_iff, fun _ _ _ hexec hne => (exec_cases hexec).overrun_eq hne⟩

/-! ### An operand out of range (60_exceptions.md R220, R221) -/

/-- Every error but CONTRACT leaves an idle block idle. -/
theorem State.raise_of_idle {s : State} (hst : s.st = .idle) {code : ErrCode} (hcode : code ≠ .contract) :
    s.raise code = { s with err := code } := by
  have hctl : ctlAfter code = s.st := by
    rw [hst]
    cases code with
    | contract => exact absurd rfl hcode
    | ok | empty | equal | trunc | notree | index | illegal => rfl
  rw [State.raise, hctl]

/-- A command that an idle block accepts and ends in INDEX has no other effect. -/
theorem State.accept_raise_index {s : State} (hst : s.st = .idle) (op : BitVec 4) :
    (s.accept op).raise .index = { s with lastop := op, err := .index, resultValid := false } :=
  State.raise_of_idle (s := s.accept op) hst (by decide)

/-! ### SETN (40_config_commands.md R101) -/

/-- Settles O24: NSYM holds every legal count, which is at most NSYM_MAX and so fits 16 bits. -/
theorem setnSetsAlphabetSize : Obligations.SetnSetsAlphabetSize := by
  unfold Obligations.SetnSetsAlphabetSize
  intro n s hst hcfg
  constructor
  · intro hn
    obtain ⟨-, hmax⟩ := hcfg
    have hfits : xFits n = true := xFits_iff_le.mpr (hn.trans hmax)
    exact ⟨_, execSetn_ok s hn, toNat_ofNat_of_xFits hfits, rfl⟩
  · intro hn
    exact (execSetn_index s hn).trans (congrArg _ (State.accept_raise_index hst 0x1#4))

/-! ### LDLEN (40_config_commands.md R102) -/

/-- Settles O25, by what a written array reads as at the entry written and at any other. -/
theorem ldlenWritesOneEntry : Obligations.LdlenWritesOneEntry := by
  unfold Obligations.LdlenWritesOneEntry
  intro i l s hst _
  constructor
  · intro hi
    exact ⟨_, execLdlen_ok s hi, Memory.read_write_same s.len i _,
      fun j hj => Memory.read_write_other s.len _ hj, rfl⟩
  · intro hi
    exact (execLdlen_index s hi).trans (congrArg _ (State.accept_raise_index hst 0x2#4))

/-! ### RDLEN (40_config_commands.md R103, 10_state.md R39) -/

theorem lenValue_of_written {m : List Host.Cell} {i : Nat} {v : Byte} (h : Memory.read m i = some v) (draws : Nat) :
    lenValue m draws i = (v, draws) := by
  rw [lenValue, h]

theorem lenValue_of_unwritten {m : List Host.Cell} {i : Nat} (h : Memory.read m i = none) (draws : Nat) :
    lenValue m draws i = (Config.freeLen draws, draws + 1) := by
  rw [lenValue, h]

theorem zext16_eq_append (l : Byte) : zext16 l = 0#8 ++ l := BitVec.setWidth_eq_append (by decide)

/-- RDLEN in range returns what one read of the entry gives, and counts the draw that it made. -/
theorem exec_rdlen_of_lenValue {s : State} {i d : Nat} {v : Byte} (hi : i < s.cfg.nsymMax)
    (hread : lenValue s.len s.draws i = (v, d)) :
    exec (.rdlen i) s =
      .next { s with lastop := 0x3#4, err := .ok, resultValid := true, rval := 0#8 ++ v, draws := d } := by
  have hval : zext16 (s.readLen i) = 0#8 ++ v := by rw [zext16_eq_append, State.readLen, hread]
  have hdraws : (s.accept 0x3#4).afterReadLen i = { s.accept 0x3#4 with draws := d } :=
    congrArg (fun read => { s.accept 0x3#4 with draws := read.2 }) hread
  refine (execRdlen_ok s hi).trans ?_
  rw [hval, hdraws]
  rfl

/-- Settles O26: a written entry is read as it stands and makes no draw; an unwritten one makes one. -/
theorem rdlenReturnsEntry : Obligations.RdlenReturnsEntry := by
  unfold Obligations.RdlenReturnsEntry
  intro i s hst
  refine ⟨fun v hi hread => ?_, fun hi hread => ?_, fun hi => ?_⟩
  · exact exec_rdlen_of_lenValue hi (lenValue_of_written hread s.draws)
  · exact exec_rdlen_of_lenValue hi (lenValue_of_unwritten hread s.draws)
  · exact (execRdlen_index s hi).trans (congrArg _ (State.accept_raise_index hst 0x3#4))

/-! ### DISCARD (40_config_commands.md R104) -/

/-- Settles O27: DISCARD drops the tree that the accepting state has, or none. -/
theorem discardDropsTree : Obligations.DiscardDropsTree := by
  unfold Obligations.DiscardDropsTree
  exact execDiscard_eq

end Sys2Proof.Machine
end

section
/-! The obligations of 41_build.md: BUILD's acceptance step, and BuildTree with its completion step. -/

namespace Sys2Proof.Machine

/-! ### Acceptance (41_build.md R130, R131) -/

/-- Settles O28: with NSYM in range the contract holds, and the build begins. -/
theorem buildAccepted : Obligations.BuildAccepted := by
  unfold Obligations.BuildAccepted
  exact execBuild_ok

/-- Settles O29: with NSYM out of range the contract is violated, and CONTRACT halts the block. -/
theorem buildContractViolationHalts : Obligations.BuildContractViolationHalts := by
  unfold Obligations.BuildContractViolationHalts
  exact execBuild_contract

/-! ### PAIRS (41_build.md R132) -/

theorem sortedPairs_symbols_perm (s : State) :
    (s.sortedPairs.map Pair.symbol).Perm ((List.range s.nsym.toNat).map (BitVec.ofNat 16)) := by
  have hsort := (sortStable_perm Pair.le (readPairs s.len s.nsym.toNat 0 s.draws).1).map Pair.symbol
  rwa [readPairs_symbols, ← List.range_eq_range'] at hsort

/-- No two entries of PAIRS have the same symbol, since every symbol fits its 16 bits. -/
theorem sortedPairs_symbols_nodup (s : State) : (s.sortedPairs.map Pair.symbol).Nodup := by
  refine (sortedPairs_symbols_perm s).nodup_iff.mpr (List.Nodup.map_on (fun i hi j hj hij => ?_) List.nodup_range)
  have hN := s.nsym.isLt
  rw [List.mem_range] at hi hj
  have hmod : i % 2 ^ 16 = j % 2 ^ 16 := by simpa using congrArg BitVec.toNat hij
  omega

theorem mem_sortedPairs_of_written {s : State} {i : Nat} {v : Byte} (hi : i < s.nsym.toNat)
    (hv : Memory.read s.len i = some v) : (⟨v, BitVec.ofNat 16 i⟩ : Pair) ∈ s.sortedPairs := by
  rw [State.sortedPairs, mem_sortStable]
  exact List.mem_of_getElem? (mem_readPairs_of_written s.len s.nsym.toNat 0 s.draws i v (Nat.zero_le i) (by omega) hv)

/-- The key order of PAIRS is strict: equal keys would be equal symbols. -/
theorem sortedPairs_strict (s : State) : s.sortedPairs.Pairwise fun a b =>
    a.length.toNat < b.length.toNat ∨ (a.length.toNat = b.length.toNat ∧ a.symbol.toNat < b.symbol.toNat) := by
  have hsorted : s.sortedPairs.Pairwise fun a b => a.le b = true := sortedPairs_sorted _
  refine (hsorted.and (List.pairwise_map.mp (sortedPairs_symbols_nodup s))).imp fun {a b} ⟨hle, hne⟩ => ?_
  simp only [Pair.le, Bool.or_eq_true, Bool.and_eq_true, decide_eq_true_eq] at hle
  have hnum : a.symbol.toNat ≠ b.symbol.toNat := fun h => hne (BitVec.eq_of_toNat_eq h)
  omega

/-- Settles O33, from the sort's permutation of the pairs read and the strictness of its order. -/
theorem pairsAscendByLengthThenSymbol : Obligations.PairsAscendByLengthThenSymbol := by
  unfold Obligations.PairsAscendByLengthThenSymbol
  exact fun s => ⟨sortedPairs_symbols_perm s, fun _ _ hi hv => mem_sortedPairs_of_written hi hv, sortedPairs_strict s⟩

/-- Where every length read has been written, an entry of PAIRS is a symbol below N with its length. -/
theorem exists_index_of_mem_sortedPairs {s : State} (hw : LensWritten s) {p : Pair} (hp : p ∈ s.sortedPairs) :
    ∃ i < s.nsym.toNat, p.length.toNat = lenOf s i ∧ p.symbol = BitVec.ofNat 16 i := by
  rw [State.sortedPairs, mem_sortStable, readPairs_lensWritten hw, List.mem_map] at hp
  obtain ⟨i, hi, rfl⟩ := hp
  exact ⟨i, List.mem_range.mp hi, rfl, rfl⟩

/-! ### CODES (41_build.md R133 to R135) -/

/-- The walk visits the last entries first, so a tail of CODES is what the walk over that tail of PAIRS left. -/
theorem drop_assignCodes (ps : List Pair) (i : Nat) :
    (assignCodes ps).codes.drop i = (assignCodes (ps.drop i)).codes := by
  induction i generalizing ps with
  | zero => rfl
  | succ i ih =>
    cases ps with
    | nil => rfl
    | cons p ps => exact ih ps

/-- CODES from entry `i` on: that entry is the visit of its pair after the walk over the later ones. -/
theorem drop_assignCodes_of_getElem? {ps : List Pair} {i : Nat} {p : Pair} (h : ps[i]? = some p) :
    (assignCodes ps).codes.drop i = ((assignCodes (ps.drop (i + 1))).visit p).codes := by
  obtain ⟨hi, rfl⟩ := List.getElem?_eq_some_iff.mp h
  rw [drop_assignCodes, List.drop_eq_getElem_cons hi]
  rfl

theorem getElem?_assignCodes {ps : List Pair} {i : Nat} {p : Pair} (h : ps[i]? = some p) :
    (assignCodes ps).codes[i]? = some ⟨(assignCodes (ps.drop (i + 1))).acc,
      lowered (assignCodes (ps.drop (i + 1))).t p.length, p.symbol⟩ := by
  rw [← List.head?_drop, drop_assignCodes_of_getElem? h]
  rfl

theorem lowered_toNat (t l : Byte) : (lowered t l).toNat = min l.toNat t.toNat := by
  unfold lowered
  split <;> omega

/-- The tracker is the least length walked, 32 at most. -/
theorem assignCodes_t (ps : List Pair) :
    (assignCodes ps).t.toNat = ps.foldr (fun q m => min q.length.toNat m) 32 := by
  induction ps with
  | nil => rfl
  | cons p ps ih => rw [List.foldr_cons, ← ih]; exact lowered_toNat _ _

/-- The accumulator is the sum of the increments walked, modulo 2^32. -/
theorem assignCodes_acc (ps : List Pair) : (assignCodes ps).acc.toNat =
    ((assignCodes ps).codes.map fun y => 2 ^ (32 - y.clen.toNat) % 2 ^ 32).sum % 2 ^ 32 := by
  induction ps with
  | nil => rfl
  | cons p ps ih =>
    simp only [assignCodes, Walk.visit, increment, List.map_cons, List.sum_cons, BitVec.toNat_add, BitVec.toNat_ofNat, ih]
    omega

/-- Settles O34: an entry's code is the accumulator, and its clen the tracker, of the walk over the later entries. -/
theorem storedCodesSumIncrements : Obligations.StoredCodesSumIncrements := by
  unfold Obligations.StoredCodesSumIncrements
  intro ps i p h
  refine ⟨_, getElem?_assignCodes h, rfl, ?_, ?_⟩
  · obtain ⟨hi, rfl⟩ := List.getElem?_eq_some_iff.mp h
    rw [List.drop_eq_getElem_cons hi, List.foldr_cons, ← assignCodes_t]
    exact lowered_toNat _ _
  · rw [drop_assignCodes]
    exact assignCodes_acc _

/-- Settles O35: the laws of the stable sort, for the order by code. -/
theorem codesSortedStably : Obligations.CodesSortedStably := by
  unfold Obligations.CodesSortedStably
  refine fun s => ⟨sortStable_perm _ _, sortedTriples_sorted _, fun c => ?_⟩
  refine sortStable_stable Triple.le _ (fun a b ha hb => ?_) _
  rw [decide_eq_true_eq] at ha hb
  simp [Triple.le, ha, hb]

/-! ### The completion step (41_build.md R141 to R144) -/

/-- The completion step of the machine is that of the state it stands in, the turn being used up. -/
theorem BlockNext.step_building {s rest : State} (h : BlockNext s rest) (hs : s.st = .building) :
    step s = .next { s.buildComplete with turns := rest.turns } := by
  rw [Machine.step_building h hs, h.rest_eq]
  cases hp : (buildPartition s).1 with
  | node n =>
    have hp' : (buildPartition { s with turns := rest.turns }).1 = .node n := hp
    rw [buildComplete_ok s hp, buildComplete_ok _ hp']
    rfl
  | failed e =>
    have hp' : (buildPartition { s with turns := rest.turns }).1 = .failed e := hp
    rw [buildComplete_failed s hp, buildComplete_failed _ hp']
    rfl

theorem buildComplete_nodes (s : State) : s.buildComplete.nodes = (buildPartition s).2.nodes := by
  cases hp : (buildPartition s).1 with
  | node n => rw [buildComplete_ok s hp]
  | failed e => rw [buildComplete_failed s hp]

/-- Either BuildTree answers a tree, which is committed, or its error is raised. -/
theorem buildComplete_commits (s : State) :
    (s.buildComplete.treeValid = true ∧ s.buildComplete.nnodes = s.buildComplete.nextNode ∧
        s.buildComplete.err = s.err) ∨
      ((s.buildComplete.err = .empty ∨ s.buildComplete.err = .equal) ∧
        s.buildComplete.treeValid = s.treeValid ∧ s.buildComplete.nnodes = s.nnodes) := by
  cases hp : (buildPartition s).1 with
  | node n => rw [buildComplete_ok s hp]; exact .inl ⟨rfl, rfl, rfl⟩
  | failed e =>
    rw [buildComplete_failed s hp]
    exact .inr ⟨(partition_failed _ _ _ _ hp).symm, rfl, rfl⟩

/-- Settles O36, by the frame of the completion step and what it commits. -/
theorem buildCompletionCommits : Obligations.BuildCompletionCommits := by
  unfold Obligations.BuildCompletionCommits
  intro s rest hst hpairs hcodes hb
  have hcommit := buildComplete_commits rest
  rw [hb.err_eq, hb.treeValid_eq, hb.nnodes_eq] at hcommit
  refine ⟨rest.buildComplete, step_building hb hst, ?_, hcommit⟩
  have hframe := buildComplete_frame rest
  rwa [buildComplete_st, ← hpairs, ← hcodes, ← hb.pairs_eq, ← hb.codes_eq] at hframe

/-- Distinct codes give a tree, and no error. -/
theorem buildComplete_of_distinct {s : State} (h2 : 2 ≤ s.nsym.toNat) (hd : CodesDistinct s) :
    s.buildComplete.treeValid = true ∧ s.buildComplete.err = s.err := by
  rw [buildComplete_ok s (buildPartition_tree s h2 hd).1]
  exact ⟨rfl, rfl⟩

/-- Two equal codes give EQUAL, and no tree. -/
theorem buildComplete_of_not_distinct {s : State} (hv : s.treeValid = false) (h2 : 2 ≤ s.nsym.toNat)
    (hd : ¬ CodesDistinct s) : s.buildComplete.treeValid = false ∧ s.buildComplete.err = .equal := by
  rw [buildComplete_failed s (buildPartition_equal s h2 hd)]
  exact ⟨hv, rfl⟩

/-- Settles O37, by the two outcomes of a build. -/
theorem buildSucceedsIffCodesDistinct : Obligations.BuildSucceedsIffCodesDistinct := by
  unfold Obligations.BuildSucceedsIffCodesDistinct
  intro s rest hst hv hok h2 hb
  refine ⟨_, hb.step_building hst, fun hd => ?_, buildComplete_of_not_distinct hv h2⟩
  rw [← hok]
  exact buildComplete_of_distinct h2 hd

/-- A tree stands only where the codes were distinct, and it has N - 1 nodes. -/
theorem buildComplete_nnodes {s : State} (hv : s.treeValid = false) (h2 : 2 ≤ s.nsym.toNat)
    (ht : s.buildComplete.treeValid = true) :
    s.buildComplete.nnodes.toNat = s.nsym.toNat - 1 ∧ s.buildComplete.nextNode = s.buildComplete.nnodes := by
  have hd : CodesDistinct s := by
    by_contra hd
    exact absurd ((buildComplete_of_not_distinct hv h2 hd).1.symm.trans ht) Bool.false_ne_true
  obtain ⟨hroot, htree⟩ := buildPartition_tree s h2 hd
  have hcount := htree.hi_eq
  rw [sortedCodes_length] at hcount
  rw [buildComplete_ok s hroot]
  exact ⟨by dsimp only; omega, rfl⟩

/-- Settles O41: Partition allocates fewer nodes than it has entries, and for a whole tree just one fewer. -/
theorem buildAllocatesNodesForLeaves : Obligations.BuildAllocatesNodesForLeaves := by
  unfold Obligations.BuildAllocatesNodesForLeaves
  intro s rest hst hv h2 hb
  refine ⟨_, hb.step_building hst, buildComplete_nnodes hv h2, fun i hi => ?_⟩
  have hgrown := (buildPartition_grown s h2).1
  have hbound := hgrown.bound
  have hzero : (0 : Half).toNat = 0 := rfl
  dsimp only at hbound ⊢
  rw [buildComplete_nodes]
  exact hgrown.above i (by omega)

/-- Every stored code's stream code leads from the root to its symbol. -/
theorem leads_buildComplete {s : State} (h2 : 2 ≤ s.nsym.toNat) (hd : CodesDistinct s) {x : Triple}
    (hx : x ∈ storedCodes s) :
    leads s.buildComplete.nodes (streamCode 32 (sortedCodes s) x.code) 0 = some x.symbol ∧
      1 ≤ (streamCode 32 (sortedCodes s) x.code).length ∧ (streamCode 32 (sortedCodes s) x.code).length ≤ 32 := by
  rw [buildComplete_nodes]
  exact (buildPartition_tree s h2 hd).2.leads (le_refl 32) rfl (sortedCodes_sorted s) (sortedCodes_agree s)
      ((mem_sortStable _ _ _).mpr hx)

/-- Settles O42, by the tree that a build with distinct codes leaves. -/
theorem streamCodeLeadsToSymbol : Obligations.StreamCodeLeadsToSymbol := by
  unfold Obligations.StreamCodeLeadsToSymbol
  intro s rest hst hv h2 hd hb
  exact ⟨_, hb.step_building hst, fun x hx => leads_buildComplete h2 hd hx⟩

/-! ### Lengths of 0 (41_build.md R134, R143 (b)) -/

/-- Two entries of PAIRS with length 0 are the first two. -/
theorem second_length_zero {s : State} {p q a b : Pair} {l : List Pair} (hps : s.sortedPairs = p :: q :: l)
    (ha : a ∈ s.sortedPairs) (hb : b ∈ s.sortedPairs) (hab : a ≠ b) (ha0 : a.length.toNat = 0)
    (hb0 : b.length.toNat = 0) : q.length.toNat = 0 := by
  have hsorted := sortedPairs_lengths s
  rw [hps] at hsorted ha hb
  have hleast : ∀ c ∈ q :: l, q.length.toNat ≤ c.length.toNat := by
    intro c hc
    rcases List.mem_cons.mp hc with rfl | hc
    · exact le_refl _
    · exact List.rel_of_pairwise_cons hsorted.of_cons hc
  rcases List.mem_cons.mp ha with rfl | ha
  · rcases List.mem_cons.mp hb with rfl | hb
    · exact absurd rfl hab
    · exact Nat.le_zero.mp (hb0 ▸ hleast b hb)
  · exact Nat.le_zero.mp (ha0 ▸ hleast a ha)

/-- An entry of length 0 increments by 0, so the entry before it has the same code (R134). -/
theorem acc_visit_of_length_zero {q : Pair} (h : q.length.toNat = 0) (w : Walk) : (w.visit q).acc = w.acc := by
  have hlow : lowered w.t q.length = 0 := BitVec.eq_of_toNat_eq (by rw [lowered_toNat, h, Nat.zero_min]; rfl)
  have hinc : increment 0 = 0 := by decide
  rw [Walk.visit, hlow, hinc]
  exact BitVec.add_zero _

theorem not_codesDistinct_of_second_length_zero {s : State} {p q : Pair} {l : List Pair}
    (hps : s.sortedPairs = p :: q :: l) (hq : q.length.toNat = 0) : ¬ CodesDistinct s := by
  have hsame : ((assignCodes l).visit q).acc = (assignCodes l).acc := acc_visit_of_length_zero hq _
  rw [CodesDistinct, storedCodes, hps]
  intro hd
  exact (List.nodup_cons.mp hd).1 (List.mem_cons.mpr (.inl hsame))

/-- Settles O39: the first two entries of PAIRS have length 0, and the second adds nothing to the first one's code. -/
theorem twoZeroLengthsFail : Obligations.TwoZeroLengthsFail := by
  unfold Obligations.TwoZeroLengthsFail
  intro s rest i j hst hv hij hj hi0 hj0 hb
  have hN := s.nsym.isLt
  have hne : (⟨0, BitVec.ofNat 16 i⟩ : Pair) ≠ ⟨0, BitVec.ofNat 16 j⟩ := by
    intro h
    have hmod : i % 2 ^ 16 = j % 2 ^ 16 := by simpa using congrArg (fun p => p.symbol.toNat) h
    omega
  have hd : ¬ CodesDistinct s := by
    match hps : s.sortedPairs with
    | p :: q :: l =>
      exact not_codesDistinct_of_second_length_zero hps (second_length_zero hps
        (mem_sortedPairs_of_written (by omega) hi0) (mem_sortedPairs_of_written hj hj0) hne rfl rfl)
    | [] | [p] =>
      have hlen := sortedPairs_length s
      rw [hps] at hlen
      simp only [List.length_nil, List.length_singleton] at hlen
      omega
  exact ⟨_, hb.step_building hst, buildComplete_of_not_distinct hv (by omega) hd⟩

/-! ### Codes within the Kraft sum (41_build.md R143) -/

/-- The Kraft sum of a list of pairs, scaled by 2^32. -/
def pairsKraft (ps : List Pair) : Nat := (ps.map fun p => 2 ^ (32 - p.length.toNat)).sum

theorem pairsKraft_cons (p : Pair) (ps : List Pair) :
    pairsKraft (p :: ps) = 2 ^ (32 - p.length.toNat) + pairsKraft ps := by
  rw [pairsKraft, List.map_cons, List.sum_cons]; rfl

/-- A part of PAIRS with lengths in 1..32 and a Kraft sum of at most 1. -/
structure WithinKraft (ps : List Pair) : Prop where
  range : ∀ p ∈ ps, 1 ≤ p.length.toNat ∧ p.length.toNat ≤ 32
  ascending : ps.Pairwise fun a b => a.length.toNat ≤ b.length.toNat
  kraft : pairsKraft ps ≤ 2 ^ 32

theorem WithinKraft.of_cons {p : Pair} {ps : List Pair} (h : WithinKraft (p :: ps)) : WithinKraft ps where
  range q hq := h.range q (List.mem_cons_of_mem p hq)
  ascending := h.ascending.of_cons
  kraft := le_trans (pairsKraft_cons p ps ▸ Nat.le_add_left _ _) h.kraft

theorem WithinKraft.drop {ps : List Pair} (h : WithinKraft ps) (k : Nat) : WithinKraft (ps.drop k) := by
  induction k generalizing ps with
  | zero => exact h
  | succ k ih =>
    cases ps with
    | nil => exact h
    | cons p ps => exact ih h.of_cons

/-- The codes fall strictly along PAIRS, so they are distinct. -/
theorem WithinKraft.codes_nodup {ps : List Pair} (h : WithinKraft ps) :
    ((assignCodes ps).codes.map Triple.code).Nodup := by
  obtain ⟨-, -, hfall, -⟩ := assignCodes_kraft ps h.range h.ascending h.kraft
  exact List.pairwise_map.mpr (hfall.imp fun hlt heq => by rw [heq] at hlt; omega)

theorem WithinKraft.acc_eq {ps : List Pair} (h : WithinKraft ps) :
    (assignCodes ps).acc.toNat = pairsKraft ps % 2 ^ 32 :=
  (assignCodes_kraft ps h.range h.ascending h.kraft).2.1

theorem WithinKraft.code_lt {ps : List Pair} (h : WithinKraft ps) {x : Triple} (hx : x ∈ (assignCodes ps).codes) :
    x.code.toNat < pairsKraft ps :=
  (assignCodes_kraft ps h.range h.ascending h.kraft).2.2.2 x hx

/-- The first entry's tracker is its own length. -/
theorem WithinKraft.lowered_eq_length {p : Pair} {ps : List Pair} (h : WithinKraft (p :: ps)) :
    lowered (assignCodes ps).t p.length = p.length :=
  BitVec.eq_of_toNat_eq (assignCodes_kraft (p :: ps) h.range h.ascending h.kraft).1

theorem WithinKraft.of_state {s : State} (hw : LensWritten s) (hr : LensInRange s) (hk : kraftSum s ≤ 2 ^ 32) :
    WithinKraft s.sortedPairs where
  range := length_range_of_mem_sortedPairs hw hr
  ascending := sortedPairs_lengths s
  kraft := by rw [← sortedPairs_kraftSum hw] at hk; exact hk

theorem codesDistinct_of_kraft {s : State} (hw : LensWritten s) (hr : LensInRange s) (hk : kraftSum s ≤ 2 ^ 32) :
    CodesDistinct s := (WithinKraft.of_state hw hr hk).codes_nodup

/-- Settles O38: while the Kraft sum stays within 1 no sum of increments wraps, and the codes are distinct. -/
theorem buildSucceedsUnderKraft : Obligations.BuildSucceedsUnderKraft := by
  unfold Obligations.BuildSucceedsUnderKraft
  intro s rest hst hv h2 hw hr hk hb
  exact ⟨_, hb.step_building hst, buildComplete_of_distinct h2 (codesDistinct_of_kraft hw hr hk)⟩

/-! ### One length of 0 (41_build.md R143 (c)) -/

/-- The last entry of PAIRS is visited first, with the code 0. -/
theorem zero_mem_assignCodes {ps : List Pair} (h : ps ≠ []) : 0 ∈ (assignCodes ps).codes.map Triple.code := by
  induction ps with
  | nil => exact absurd rfl h
  | cons p ps ih =>
    cases ps with
    | nil => exact List.mem_singleton.mpr rfl
    | cons q ps => exact List.mem_cons_of_mem _ (ih (List.cons_ne_nil q ps))

/-- With one length of 0 and the others in 1..32, PAIRS begins with that one entry. -/
theorem sortedPairs_one_zero {s : State} {z : Nat} (hw : LensWritten s) (hz : z < s.nsym.toNat) (hz0 : lenOf s z = 0)
    (hothers : ∀ i < s.nsym.toNat, i ≠ z → 1 ≤ lenOf s i ∧ lenOf s i ≤ 32) :
    ∃ p ps, s.sortedPairs = p :: ps ∧ p.length.toNat = 0 ∧
      ∀ q ∈ ps, 1 ≤ q.length.toNat ∧ q.length.toNat ≤ 32 := by
  obtain ⟨v, hv⟩ := Option.isSome_iff_exists.mp (hw z hz)
  have hmem := mem_sortedPairs_of_written hz hv
  have hv0 : v.toNat = 0 := by simpa [lenOf, hv] using hz0
  have hstrict := sortedPairs_strict s
  have hindex := fun q (hq : q ∈ s.sortedPairs) => exists_index_of_mem_sortedPairs hw hq
  cases hps : s.sortedPairs with
  | nil => rw [hps] at hmem; exact absurd hmem List.not_mem_nil
  | cons p ps =>
    rw [hps] at hmem hstrict hindex
    have hfirst := (List.pairwise_cons.mp hstrict).1
    have hp0 : p.length.toNat = 0 := by
      rcases List.mem_cons.mp hmem with rfl | hmem
      · exact hv0
      · have hle := hfirst _ hmem
        dsimp only at hle
        omega
    obtain ⟨i, hi, hpi, hpsym⟩ := hindex p List.mem_cons_self
    have hiz : i = z := by
      by_contra hne
      have := (hothers i hi hne).1
      omega
    refine ⟨p, ps, rfl, hp0, fun q hq => ?_⟩
    obtain ⟨j, hj, hqj, hqsym⟩ := hindex q (List.mem_cons_of_mem p hq)
    have hjz : j ≠ z := by
      rintro rfl
      have hlt := hfirst q hq
      rw [hpsym, hqsym, hiz] at hlt
      omega
    rw [hqj]
    exact hothers j hj hjz

/-- The entry of length 0 has the others' Kraft sum, modulo 2^32, for its code: it meets the code 0 of the last entry
where they are complete, and lies above all codes where they are incomplete. -/
theorem codesDistinct_one_zero_iff {p : Pair} {ps : List Pair} (hne : ps ≠ []) (h : WithinKraft ps) :
    ((assignCodes (p :: ps)).codes.map Triple.code).Nodup ↔ pairsKraft ps < 2 ^ 32 := by
  have hcodes : (assignCodes (p :: ps)).codes.map Triple.code =
      (assignCodes ps).acc :: (assignCodes ps).codes.map Triple.code := rfl
  have hacc := h.acc_eq
  have hk := h.kraft
  rw [hcodes, List.nodup_cons]
  constructor
  · intro ⟨hnew, _⟩
    by_contra hfull
    have hzero : (assignCodes ps).acc = 0 :=
      BitVec.eq_of_toNat_eq (by rw [hacc, show pairsKraft ps = 2 ^ 32 by omega]; rfl)
    exact hnew (hzero ▸ zero_mem_assignCodes hne)
  · intro hlt
    refine ⟨fun hmem => ?_, h.codes_nodup⟩
    obtain ⟨x, hx, hxacc⟩ := List.mem_map.mp hmem
    have hbelow := h.code_lt hx
    rw [hxacc, hacc] at hbelow
    omega

/-- Settles O40: PAIRS begins with the length 0, whose code meets another just where the others are complete. -/
theorem oneZeroLengthFailsIffComplete : Obligations.OneZeroLengthFailsIffComplete := by
  unfold Obligations.OneZeroLengthFailsIffComplete
  intro s rest z hst hv h2 hw hz hz0 hothers hb
  obtain ⟨p, ps, hps, hp0, hrange⟩ := sortedPairs_one_zero hw hz hz0 hothers
  have hascending := sortedPairs_lengths s
  have hlen := sortedPairs_length s
  have hsum : pairsKraft s.sortedPairs = kraftSum s := sortedPairs_kraftSum hw
  rw [hps] at hascending hlen hsum
  rw [pairsKraft_cons, hp0] at hsum
  have hne : ps ≠ [] := by
    rintro rfl
    rw [List.length_singleton] at hlen
    omega
  have hdistinct : pairsKraft ps ≤ 2 ^ 32 → (CodesDistinct s ↔ pairsKraft ps < 2 ^ 32) := by
    intro hk
    rw [CodesDistinct, storedCodes, hps]
    exact codesDistinct_one_zero_iff hne ⟨hrange, hascending.of_cons, hk⟩
  refine ⟨_, hb.step_building hst, fun hfull => ?_, fun hpart => ?_⟩
  · exact buildComplete_of_not_distinct hv h2 fun hd => by
      have := (hdistinct (by omega)).mp hd
      omega
  · exact buildComplete_of_distinct h2 ((hdistinct (by omega)).mpr (by omega))

/-! ### Complete codes (41_build.md R147) -/

theorem pairsKraft_append (ps qs : List Pair) : pairsKraft (ps ++ qs) = pairsKraft ps + pairsKraft qs := by
  rw [pairsKraft, List.map_append, List.sum_append]; rfl

/-- The entry that the walk leaves for the first pair: its length, and the later pairs' Kraft sum as its code. -/
theorem WithinKraft.visit_eq {p : Pair} {ps : List Pair} (h : WithinKraft (p :: ps)) :
    ∃ c : Word, c.toNat = pairsKraft ps ∧
      (assignCodes (p :: ps)).codes = ⟨c, p.length, p.symbol⟩ :: (assignCodes ps).codes := by
  have hk := h.kraft
  have hpos : 0 < 2 ^ (32 - p.length.toNat) := Nat.two_pow_pos _
  rw [pairsKraft_cons] at hk
  refine ⟨(assignCodes ps).acc, ?_, ?_⟩
  · rw [h.of_cons.acc_eq]
    exact Nat.mod_eq_of_lt (by omega)
  · conv_rhs => rw [← h.lowered_eq_length]
    rfl

theorem Tiles.concat {a b : Nat} {r : List Triple} (h : Tiles a r b) {x : Triple} (hx : Tiles b [x] (b + sz x)) :
    Tiles a (r ++ [x]) (b + sz x) := by
  induction r generalizing a with
  | nil => have hab : a = b := h; exact hab ▸ hx
  | cons y r ih =>
    obtain ⟨hcode, hpos, hmax, hdvd, hrest⟩ := h
    exact ⟨hcode, hpos, hmax, hdvd, ih hrest⟩

/-- The entries from the last one back follow one another without a gap; each is aligned, because the first pair's
interval, the largest, divides their whole sum. -/
theorem WithinKraft.tiles {ps : List Pair} (h : WithinKraft ps)
    (hdvd : ∀ p ∈ ps.head?, 2 ^ (32 - p.length.toNat) ∣ pairsKraft ps) :
    Tiles 0 (assignCodes ps).codes.reverse (pairsKraft ps) := by
  induction ps with
  | nil => exact rfl
  | cons p ps ih =>
    obtain ⟨c, hc, hcodes⟩ := h.visit_eq
    have hp := h.range p List.mem_cons_self
    have hall : 2 ^ (32 - p.length.toNat) ∣ pairsKraft (p :: ps) := hdvd p rfl
    rw [pairsKraft_cons] at hall ⊢
    have hlater : 2 ^ (32 - p.length.toNat) ∣ pairsKraft ps := (Nat.dvd_add_right (Nat.dvd_refl _)).mp hall
    have hrest := ih h.of_cons fun q hq =>
      (Nat.pow_dvd_pow 2 (Nat.sub_le_sub_left
        (List.rel_of_pairwise_cons h.ascending (List.mem_of_mem_head? hq)) 32)).trans hlater
    rw [hcodes, List.reverse_cons, Nat.add_comm]
    exact hrest.concat ⟨hc, hp.1, hp.2, hlater, rfl⟩

/-- The list that step 4 leaves is the only one of the same entries in strictly rising order of the code. -/
theorem sortedCodes_eq_reverse {s : State} (h : WithinKraft s.sortedPairs) :
    sortedCodes s = (storedCodes s).reverse := by
  obtain ⟨-, -, hfall, -⟩ := assignCodes_kraft s.sortedPairs h.range h.ascending h.kraft
  have hrise : (storedCodes s).reverse.Pairwise fun a b => a.code.toNat ≤ b.code.toNat :=
    List.pairwise_reverse.mpr (hfall.imp Nat.le_of_lt)
  have hperm : (sortedCodes s).Perm (storedCodes s).reverse :=
    (sortStable_perm _ _).trans (List.reverse_perm _).symm
  refine hperm.eq_of_pairwise (fun a b ha hb hab hba => ?_) (sortedCodes_sorted s) hrise
  exact List.inj_on_of_nodup_map h.codes_nodup ((mem_sortStable _ _ _).mp ha) (List.mem_reverse.mp hb)
    (BitVec.eq_of_toNat_eq (Nat.le_antisymm hab hba))

/-- The canonical number of the entry at position `k` of PAIRS. -/
def canonicalNumber (ps : List Pair) (k : Nat) (p : Pair) : Nat :=
  ((ps.take k).map fun q => 2 ^ (p.length.toNat - q.length.toNat)).sum

theorem canonicalCode_eq (ps : List Pair) (k : Nat) (p : Pair) :
    canonicalCode ps k p = bitsOf p.length.toNat (canonicalNumber ps k p) := rfl

/-- The earlier entries are no longer, so their Kraft sum is the canonical number in units of the entry's interval. -/
theorem pairsKraft_take {ps : List Pair} {k : Nat} {p : Pair} (hp : p.length.toNat ≤ 32)
    (hle : ∀ q ∈ ps.take k, q.length.toNat ≤ p.length.toNat) :
    pairsKraft (ps.take k) = 2 ^ (32 - p.length.toNat) * canonicalNumber ps k p := by
  rw [pairsKraft, canonicalNumber, ← List.sum_map_mul_left]
  refine congrArg List.sum (List.map_congr_left fun q hq => ?_)
  have hq := hle q hq
  rw [← Nat.pow_add]
  exact congrArg _ (by omega)

/-- Where the code is complete, an entry's stored code is the complement of its canonical number, at its first levels. -/
theorem levelsComplement_eq_bitsOf {x : Triple} {v : Nat} (hl : x.clen.toNat ≤ 32)
    (hx : x.code.toNat = 2 ^ (32 - x.clen.toNat) * (2 ^ x.clen.toNat - (v + 1))) (hv : v < 2 ^ x.clen.toNat) :
    levelsComplement 32 x = bitsOf x.clen.toNat v := by
  rw [levelsComplement, bitsOf, show 32 - (32 - x.clen.toNat) = x.clen.toNat by omega]
  refine List.map_congr_left fun j hj => ?_
  rw [List.mem_range] at hj
  have hlow : 31 - (32 - 32 + j) ≥ 32 - x.clen.toNat := by omega
  have hlvl : 31 - (32 - 32 + j) - (32 - x.clen.toNat) = x.clen.toNat - 1 - j := by omega
  have hin : x.clen.toNat - 1 - j < x.clen.toNat := by omega
  rw [lvl_eq_testBit, hx, Nat.testBit_two_pow_mul, hlvl, Nat.testBit_two_pow_sub_succ hv, decide_eq_true hlow,
    decide_eq_true hin, Bool.true_and, Bool.true_and, Bool.not_not]

/-- In a complete code each entry's code is what its canonical number and its own interval leave of 2^32. -/
theorem complement_of_complete {L v later : Nat} (hL : L ≤ 32)
    (h : 2 ^ (32 - L) * v + (2 ^ (32 - L) + later) = 2 ^ 32) :
    v < 2 ^ L ∧ later = 2 ^ (32 - L) * (2 ^ L - (v + 1)) := by
  have hpos : 0 < 2 ^ (32 - L) := Nat.two_pow_pos _
  have hall : 2 ^ (32 - L) * 2 ^ L = 2 ^ 32 := by rw [← Nat.pow_add]; exact congrArg _ (by omega)
  have hle : 2 ^ (32 - L) * (v + 1) ≤ 2 ^ (32 - L) * 2 ^ L := by rw [hall, Nat.mul_add]; omega
  refine ⟨Nat.le_of_mul_le_mul_left hle hpos, ?_⟩
  rw [Nat.mul_sub, hall, Nat.mul_add]
  omega

/-- The stored code of an entry of a complete list of pairs, at its levels, is the complement of its canonical code. -/
theorem WithinKraft.levelsComplement_eq_canonicalCode {ps : List Pair} (h : WithinKraft ps)
    (hfull : pairsKraft ps = 2 ^ 32) {k : Nat} {p : Pair} (hp : ps[k]? = some p) :
    ∃ x ∈ (assignCodes ps).codes, x.symbol = p.symbol ∧ levelsComplement 32 x = canonicalCode ps k p := by
  obtain ⟨hk, rfl⟩ := List.getElem?_eq_some_iff.mp hp
  have hdrop := List.drop_eq_getElem_cons hk
  have hwithin := h.drop k
  rw [hdrop] at hwithin
  obtain ⟨c, hc, hcodes⟩ := hwithin.visit_eq
  have hmax := (h.range ps[k] (List.getElem_mem hk)).2
  have hsum : pairsKraft (ps.take k) + pairsKraft (ps.drop k) = 2 ^ 32 := by
    rw [← pairsKraft_append, List.take_append_drop, hfull]
  have hascending : (ps.take k ++ ps.drop k).Pairwise fun a b => a.length.toNat ≤ b.length.toNat := by
    rw [List.take_append_drop]; exact h.ascending
  have hearlier : ∀ q ∈ ps.take k, q.length.toNat ≤ ps[k].length.toNat := fun q hq =>
    (List.pairwise_append.mp hascending).2.2 q hq ps[k] (hdrop ▸ List.mem_cons_self)
  rw [pairsKraft_take hmax hearlier, hdrop, pairsKraft_cons] at hsum
  obtain ⟨hv, hlater⟩ := complement_of_complete hmax hsum
  refine ⟨⟨c, ps[k].length, ps[k].symbol⟩, ?_, rfl, ?_⟩
  · refine List.mem_of_mem_drop (i := k) ?_
    rw [drop_assignCodes, hdrop, hcodes]
    exact List.mem_cons_self
  · rw [canonicalCode_eq]
    exact levelsComplement_eq_bitsOf hmax (hc.trans hlater) hv

/-- The entries of a complete code tile the whole block, so each stream code is the complement of the code's levels. -/
theorem streamCode_of_complete {s : State} (h : WithinKraft s.sortedPairs) (h2 : 2 ≤ s.nsym.toNat)
    (hfull : pairsKraft s.sortedPairs = 2 ^ 32) {x : Triple} (hx : x ∈ storedCodes s) :
    streamCode 32 (sortedCodes s) x.code = levelsComplement 32 x := by
  have htiles : Tiles 0 (sortedCodes s) (0 + 2 ^ 32) := by
    rw [sortedCodes_eq_reverse h, Nat.zero_add, ← hfull]
    exact h.tiles fun p hp => hfull ▸ Nat.pow_dvd_pow 2 (Nat.sub_le _ _)
  exact htiles.streamCode 32 (le_refl 32) _ 0 (Nat.dvd_zero _) (by simpa using h2) x ((mem_sortStable _ _ _).mpr hx)

/-- Settles O43: each stream code of a complete code is the canonical one, and it leads to its symbol. -/
theorem completeCodeDecodesCanonically : Obligations.CompleteCodeDecodesCanonically := by
  unfold Obligations.CompleteCodeDecodesCanonically
  intro s rest hst hv h2 hw hr hk hb
  have hwithin := WithinKraft.of_state hw hr hk.le
  have hfull : pairsKraft s.sortedPairs = 2 ^ 32 := (sortedPairs_kraftSum hw).trans hk
  have hd := codesDistinct_of_kraft hw hr hk.le
  refine ⟨_, hb.step_building hst, (buildComplete_of_distinct h2 hd).1, fun k p hp => ?_⟩
  obtain ⟨x, hx, hsym, hcanon⟩ := hwithin.levelsComplement_eq_canonicalCode hfull hp
  rw [← hcanon, ← hsym, ← streamCode_of_complete hwithin h2 hfull hx]
  exact (leads_buildComplete h2 hd hx).1

end Sys2Proof.Machine
end

section
/-! The obligations of 42_decode.md: DECODE's acceptance step, the bit source, and the walk from the root to a leaf. -/

namespace Sys2Proof.Machine

/-! ### Acceptance (42_decode.md R180, R181) -/

/-- Settles O30: with a tree, the acceptance step begins the walk. -/
theorem decodeAccepted : Obligations.DecodeAccepted := by
  unfold Obligations.DecodeAccepted
  exact execDecode_ok

/-- Settles O31: NOTREE leaves an idle block idle. -/
theorem decodeWithoutTree : Obligations.DecodeWithoutTree := by
  unfold Obligations.DecodeWithoutTree
  intro s hst hv
  exact (execDecode_notree s hv).trans (congrArg _ (State.raise_of_idle (s := s.accept 0x5#4) hst (by decide)))

/-! ### The traversal step as a step of the machine (42_decode.md R182, R184) -/

theorem slotOf_eq (d : Node) (b : Bool) :
    slotOf d b = (if b then d.lidx else d.ridx, if b then d.lval else d.rval) := by
  cases b <;> rfl

section
variable {s rest : State} (h : BlockNext s rest) (hst : s.st = .decoding)
include h hst

theorem BlockNext.step_leaf {b : Bool} (ha : s.source.answer = .bit b)
    (hs : (slotOf (nodeAt s.nodes s.cur.toNat) b).1 = sent) :
    step s = .next { rest with
      source := s.source.advance, bitcnt := s.bitcnt + 1, rval := (slotOf (nodeAt s.nodes s.cur.toNat) b).2,
      resultValid := true, st := .idle } := by
  rw [← h.source_eq] at ha
  rw [← h.nodes_eq, ← h.cur_eq] at hs
  rw [step_decoding h hst, traverse_leaf ha hs, h.source_eq, h.bitcnt_eq, h.nodes_eq, h.cur_eq]

theorem BlockNext.step_child {b : Bool} (ha : s.source.answer = .bit b)
    (hs : (slotOf (nodeAt s.nodes s.cur.toNat) b).1 ≠ sent) :
    step s = .next { rest with
      source := s.source.advance, bitcnt := s.bitcnt + 1, cur := (slotOf (nodeAt s.nodes s.cur.toNat) b).1 } := by
  rw [← h.source_eq] at ha
  rw [← h.nodes_eq, ← h.cur_eq] at hs
  rw [step_decoding h hst, traverse_child ha hs, h.source_eq, h.bitcnt_eq, h.nodes_eq, h.cur_eq]

theorem BlockNext.step_eos (ha : s.source.answer = .eos) :
    step s = .next { rest with err := .trunc, st := .idle } := by
  rw [← h.source_eq] at ha
  rw [step_decoding h hst, traverse_eos ha]

theorem BlockNext.step_pending (ha : s.source.answer = .pending) : step s = .next rest := by
  rw [← h.source_eq] at ha
  rw [step_decoding h hst, traverse_pending ha]

end

/-- Settles O45: the node at CUR is the one read, and a BIT answer takes its leaf or its child. -/
theorem traversalStep : Obligations.TraversalStep := by
  unfold Obligations.TraversalStep
  intro s rest b d hst ha hd h
  have hslot := slotOf_eq (nodeAt s.nodes s.cur.toNat) b
  rw [nodeAt_of_read hd] at hslot
  constructor
  · intro hleaf
    have hstep := h.step_leaf hst ha (by rw [nodeAt_of_read hd, hslot]; exact hleaf)
    rwa [nodeAt_of_read hd, hslot] at hstep
  · intro hchild
    have hstep := h.step_child hst ha (by rw [nodeAt_of_read hd, hslot]; exact hchild)
    rwa [nodeAt_of_read hd, hslot] at hstep

/-- Settles O46: the one outcome of a traversal step that meets EOS. -/
theorem truncatedStreamEndsDecode : Obligations.TruncatedStreamEndsDecode := by
  unfold Obligations.TruncatedStreamEndsDecode
  exact fun _ _ hst ha h => h.step_eos hst ha

/-! ### The bit source (42_decode.md R183, 70_reset_and_hazards.md R267) -/

/-- Settles O47: the listed bits answer first, then the tail; a traversal step without an answer only uses its turn. -/
theorem bitSourceAnswers : Obligations.BitSourceAnswers := by
  unfold Obligations.BitSourceAnswers
  exact ⟨fun _ => ⟨fun _ => answer_of_bits, answer_eos, fun hpos htail => ⟨_, answer_endless hpos htail⟩, answer_silent⟩,
    fun _ _ hst ha h => h.step_pending hst ha⟩

/-- No command reads the bit source. -/
theorem ExecCase.source_eq {s t : State} {i : Instr} (h : ExecCase s i t) : t.source = s.source := by cases h <;> rfl

/-- A traversal step changes the source only by taking the bit that it answers. -/
theorem TraverseCase.source_cases {s t : State} (h : TraverseCase s t) :
    t.source = s.source ∨ ((∃ b, s.source.answer = .bit b) ∧ t.source = s.source.advance) := by
  cases h with
  | leaf b ha _ | child b ha _ => exact .inr ⟨⟨b, ha⟩, rfl⟩
  | eos | pending => exact .inl rfl

/-- Settles O18, by the inversion of the step: only a traversal step touches the source. -/
theorem bitSourceReadOnlyWhileDecoding : Obligations.BitSourceReadOnlyWhileDecoding := by
  unfold Obligations.BitSourceReadOnlyWhileDecoding
  intro s t hstep hne
  cases step_cases hstep with
  | reset _ => exact absurd rfl hne
  | complete hb _ => exact absurd (by rw [hb.buildComplete_frame]) hne
  | @traverse rest hb hst =>
    have hread := (traverse_case rest).source_cases
    rw [hb.source_eq] at hread
    obtain ⟨hbit, hadvance⟩ := hread.resolve_left hne
    exact ⟨hst, ⟨rest, hb⟩, hbit, hadvance⟩
  | read hn v => exact absurd hn.source_eq hne
  | poll hn => exact absurd hn.source_eq hne
  | ignored hn => exact absurd hn.source_eq hne
  | overrun hw _ => exact absurd hw.source_eq hne
  | illegal hw _ _ => exact absurd hw.source_eq hne
  | command hw _ _ he => exact absurd (he.source_eq.trans hw.source_eq) hne
  | nothing _ => exact absurd rfl hne

/-! ### The walk with no turn listed -/

/-- With no turn listed a decoding block moves (log entry 7). -/
theorem blockNext_of_decoding {s : State} (hst : s.st = .decoding) (hturns : s.turns = []) : BlockNext s s :=
  ⟨by rw [hst]; rfl, .inr ⟨hturns, rfl⟩⟩

/-- BITCNT has room to count 32 bits (10_state.md R27). -/
theorem bitcnt_succ {c : BitVec 6} (h : c.toNat < 32) : (c + 1).toNat = c.toNat + 1 :=
  BitVec.toNat_add_of_lt (y := 1#6) (by simp only [BitVec.toNat_ofNat]; omega)

/-! ### Every DECODE ends (42_decode.md R187, R188) -/

/-- DECODE walks in `s`, the block moving and the source answering, with a leaf at most `k` bits away. -/
structure WalkWithin (k : Nat) (s : State) : Prop where
  decoding : s.st = .decoding
  turns : s.turns = []
  answers : s.source.tail ≠ .silent
  ok : s.err = .ok
  noResult : s.resultValid = false
  filled : NodesFilled s.nodes s.nnodes.toNat
  closed : closedWithin s.nodes s.nnodes.toNat k s.cur = true
  room : s.bitcnt.toNat + k ≤ 32

/-- `t` ends a DECODE of `s`: with a symbol of the tree, or with TRUNC and RVAL kept. -/
def DecodeEnded (s t : State) : Prop :=
  t.st = .idle ∧ t.bitcnt.toNat ≤ 32 ∧
    ((t.err = .ok ∧ t.resultValid = true ∧ t.rval.toNat ≤ s.nnodes.toNat) ∨
      (t.err = .trunc ∧ t.resultValid = false ∧ t.rval = s.rval))

/-- What ends the DECODE of a later state of the walk ends that of the earlier one. -/
theorem DecodeEnded.of_walk {s u t : State} (h : DecodeEnded u t) (hnnodes : u.nnodes = s.nnodes)
    (hrval : u.rval = s.rval) : DecodeEnded s t := by
  rwa [DecodeEnded, hnnodes, hrval] at h

theorem walkWithin_of_inv {s : State} (hinv : Inv s) (hst : s.st = .decoding) (hturns : s.turns = [])
    (htail : s.source.tail ≠ .silent) : WalkWithin (32 - s.bitcnt.toNat) s := by
  obtain ⟨hv, hok, hnone, -, hcount, hclosed⟩ := hinv.decoding hst
  exact ⟨hst, hturns, htail, hok, hnone, hinv.tree_filled hv, hclosed, by omega⟩

/-- A leaf slot of a filled node holds a symbol of the tree; no tree has so many nodes that the sentinel is an index. -/
theorem NodesFilled.leaf_le {nodes : List (Nat × Node)} {n i : Nat} {d : Node} {b : Bool} (h : NodesFilled nodes n)
    (hn : n < 65536) (hi : i < n) (hd : Memory.read nodes i = some d) (hleaf : (slotOf d b).1 = sent) :
    (slotOf d b).2.toNat ≤ n := by
  obtain ⟨e, he, hleft, hright⟩ := h i hi
  cases hd.symm.trans he
  have hslot : SlotFilled n i (slotOf d b).1 (slotOf d b).2 := by
    cases b with
    | true => exact hleft
    | false => exact hright
  rcases hslot with ⟨-, hle⟩ | ⟨-, hlt, -⟩
  · exact hle
  · have hsent : sent.toNat = 65535 := rfl
    rw [hleaf, hsent] at hlt
    omega

/-- A step of the walk ends it, or leaves one bit less to the leaf. -/
theorem WalkWithin.step_cases {k : Nat} {s : State} (h : WalkWithin k s) :
    ∃ j t, k = j + 1 ∧ step s = .next t ∧
      (DecodeEnded s t ∨ (WalkWithin j t ∧ t.nnodes = s.nnodes ∧ t.rval = s.rval)) := by
  obtain ⟨hst, hturns, htail, hok, hnone, hfilled, hclosed, hroom⟩ := h
  obtain ⟨j, d, rfl, hin, hd, hslots⟩ := closedWithin_cases hclosed
  have hb := blockNext_of_decoding hst hturns
  have hcount := bitcnt_succ (c := s.bitcnt) (by omega)
  rw [← nodeAt_of_read hd] at hslots
  cases ha : s.source.answer with
  | pending => exact absurd ha (answer_ne_pending htail)
  | eos => exact ⟨j, _, rfl, hb.step_eos hst ha, .inl ⟨rfl, by dsimp only; omega, .inr ⟨rfl, hnone, rfl⟩⟩⟩
  | bit b =>
    by_cases hs : (slotOf (nodeAt s.nodes s.cur.toNat) b).1 = sent
    · have hsymbol : (slotOf (nodeAt s.nodes s.cur.toNat) b).2.toNat ≤ s.nnodes.toNat :=
        hfilled.leaf_le s.nnodes.isLt hin (by rw [nodeAt_of_read hd, hd]) hs
      exact ⟨j, _, rfl, hb.step_leaf hst ha hs,
        .inl ⟨rfl, by dsimp only; omega, .inl ⟨hok, rfl, hsymbol⟩⟩⟩
    · exact ⟨j, _, rfl, hb.step_child hst ha hs, .inr ⟨⟨hst, hturns, htail, hok, hnone, hfilled,
        (hslots b).resolve_left hs, by dsimp only; omega⟩, rfl, rfl⟩⟩

theorem WalkWithin.ends {k : Nat} {s : State} (h : WalkWithin k s) :
    ∃ n ≤ k, ∃ t, Sys2Proof.core.run n s = .next t ∧ DecodeEnded s t := by
  induction k generalizing s with
  | zero =>
    obtain ⟨j, -, hj, -⟩ := h.step_cases
    omega
  | succ k ih =>
    obtain ⟨j, u, hj, hstep, hended | ⟨hwalk, hnnodes, hrval⟩⟩ := h.step_cases
    · exact ⟨1, by omega, u, run_succ hstep 0, hended⟩
    · cases hj
      obtain ⟨n, hn, t, hrun, hended⟩ := ih hwalk
      exact ⟨n + 1, by omega, t, (run_succ hstep n).trans hrun, hended.of_walk hnnodes hrval⟩

/-- Settles O48: by the invariant a leaf is in reach of the bits that BITCNT leaves, and each step comes nearer. -/
theorem decodeEndsWithin32Bits : Obligations.DecodeEndsWithin32Bits := by
  unfold Obligations.DecodeEndsWithin32Bits
  intro s hinv hst hturns htail
  obtain ⟨n, hn, t, hrun, hended⟩ := (walkWithin_of_inv hinv hst hturns htail).ends
  exact ⟨n, by omega, t, hrun, hended⟩

/-! ### DECODE follows the stream code (42_decode.md R185) -/

/-- The first bit of a string that leads to a symbol selects that symbol's leaf, or a node from which the rest leads
there. -/
theorem leads_cons_cases {nodes : List (Nat × Node)} {b : Bool} {bs : List Bool} {i v : Half}
    (h : leads nodes (b :: bs) i = some v) :
    ((slotOf (nodeAt nodes i.toNat) b).1 = sent ∧ bs = [] ∧ (slotOf (nodeAt nodes i.toNat) b).2 = v) ∨
      ((slotOf (nodeAt nodes i.toNat) b).1 ≠ sent ∧ leads nodes bs (slotOf (nodeAt nodes i.toNat) b).1 = some v) := by
  rw [leads] at h
  by_cases hs : (slotOf (nodeAt nodes i.toNat) b).1 = sent
  · rw [if_pos hs] at h
    cases bs with
    | nil => exact .inl ⟨hs, rfl, Option.some.inj h⟩
    | cons c cs => cases h
  · rw [if_neg hs] at h
    exact .inr ⟨hs, h⟩

/-- From CUR, a string that leads to a symbol and comes next in the stream is consumed bit by bit, and no more. -/
theorem run_of_leads {bits more : List Bool} {v : Half} {s : State} (hst : s.st = .decoding) (hturns : s.turns = [])
    (hok : s.err = .ok) (hleads : leads s.nodes bits s.cur = some v) (hroom : s.bitcnt.toNat + bits.length ≤ 32)
    (hnext : s.source.bits.drop s.source.pos = bits ++ more) :
    ∃ t, Sys2Proof.core.run bits.length s = .next t ∧ t.st = .idle ∧ t.err = .ok ∧ t.resultValid = true ∧
      t.rval = v ∧ t.bitcnt.toNat = s.bitcnt.toNat + bits.length ∧ t.source.pos = s.source.pos + bits.length := by
  induction bits generalizing s with
  | nil => cases hleads
  | cons b bs ih =>
    rw [List.length_cons] at hroom ⊢
    have hb := blockNext_of_decoding hst hturns
    have hcount := bitcnt_succ (c := s.bitcnt) (by omega)
    obtain ⟨ha, hrest⟩ := answer_of_drop hnext
    rcases leads_cons_cases hleads with ⟨hs, rfl, hv⟩ | ⟨hs, hleads⟩
    · exact ⟨_, run_succ (hb.step_leaf hst ha hs) 0, rfl, hok, rfl, hv, hcount, rfl⟩
    · obtain ⟨t, hrun, hidle, herr, hvalid, hrval, hbitcnt, hpos⟩ :=
        ih (s := { s with
            source := s.source.advance, bitcnt := s.bitcnt + 1,
            cur := (slotOf (nodeAt s.nodes s.cur.toNat) b).1 })
          hst hturns hok hleads (by dsimp only; omega) hrest
      rw [advance_pos] at hpos
      exact ⟨t, (run_succ (hb.step_child hst ha hs) bs.length).trans hrun, hidle, herr, hvalid, hrval,
        by dsimp only at hbitcnt; omega, by omega⟩

/-- Settles O49: the walk from the root, with no bit counted before it. -/
theorem decodeFollowsStreamCode : Obligations.DecodeFollowsStreamCode := by
  unfold Obligations.DecodeFollowsStreamCode
  intro s bits more v hst hturns hcur hcount hok hleads hlen hnext
  rw [← hcur] at hleads
  have hzero : s.bitcnt.toNat = 0 := by rw [hcount]; rfl
  have hrun := run_of_leads hst hturns hok hleads (by omega) hnext
  rwa [hzero, Nat.zero_add] at hrun

end Sys2Proof.Machine
end

section
/-! The obligation of 43_debug.md: RDNODE's two registers and its two errors. -/

namespace Sys2Proof.Machine

/-- Settles O32: a written node is the one read, and NOTREE and INDEX leave an idle block idle. -/
theorem rdnodeShowsNode : Obligations.RdnodeShowsNode := by
  unfold Obligations.RdnodeShowsNode
  intro i s hst
  refine ⟨fun d hv hi hd => ?_, fun hv => ?_, fun hv hi => ?_⟩
  · rw [← nodeAt_of_read hd]
    exact execRdnode_ok s hv hi
  · exact (execRdnode_notree s hv).trans (congrArg _ (State.raise_of_idle (s := s.accept 0x7#4) hst (by decide)))
  · exact (execRdnode_index s hv hi).trans (congrArg _ (State.accept_raise_index hst 0x7#4))

end Sys2Proof.Machine
end

section
/-! The obligations of 60_exceptions.md: the presentation of a command word by control state, HALTED, OVERRUN, and what a
build depends on. -/

namespace Sys2Proof.Machine

/-! ### An idle block (60_exceptions.md R224, R235) -/

/-- A command word is a 32-bit row, taken whole. -/
theorem tableWord_toNat (w : Word) : tableWord 32 w.toNat = w := by
  rw [tableWord, Nat.mod_eq_of_lt w.isLt, BitVec.ofNat_toNat, BitVec.setWidth_eq]

theorem presenting_writesCommand (s : State) (w : Word) :
    WritesCommand (s.presenting w) w { s with st := .idle } :=
  ⟨s.host, rfl, .inl ⟨s.turns, rfl, rfl⟩⟩

/-- A command that the host writes to the idle block runs in that step. -/
theorem WritesCommand.step_eq_exec {s rest : State} {w : Word} {i : Instr} (h : WritesCommand s w rest)
    (hst : s.st = .idle) (hd : decodeWord w = .ok i) : step s = exec i rest :=
  (step_writesCommand h).trans (writeCommand_ok (h.st_eq.trans hst) hd)

/-- Settles O8: the host's write runs the command, and withFetchWord places such a write. -/
theorem stepRunsDecodedCommand : Obligations.StepRunsDecodedCommand := by
  unfold Obligations.StepRunsDecodedCommand
  intro s w i hd
  refine ⟨fun rest hst h => h.step_eq_exec hst hd, ?_⟩
  rw [State.withFetchWord, tableWord_toNat]
  exact (presenting_writesCommand s w).step_eq_exec rfl hd

/-- With no turn and no host operation listed a block that is not busy stands still; in HALTED that is the fault
(log entries 7 and 12). -/
theorem step_of_nothing_listed {s : State} (hb : s.st.busy = false) (hturns : s.turns = []) (hhost : s.host = []) :
    step s = if s.st.isHalted then .fault .halted else .next s := by
  simp only [step, hturns, defaultMove, hb, hhost]
  rfl

/-- Settles O50: IDLE has no pending step, and it is no fault. -/
theorem idleBlockWaits : Obligations.IdleBlockWaits := by
  unfold Obligations.IdleBlockWaits
  intro s hst
  have hb : s.st.busy = false := by rw [hst]; rfl
  refine ⟨fun ts hturns => ?_, fun hturns hhost => ?_⟩
  · have hmove := blockMove_of_not_busy (s := { s with turns := ts }) hb
    simp only [step, hturns, takeTurn, hmove]
  · rw [step_of_nothing_listed hb hturns hhost, hst]
    rfl

/-! ### What every command leaves (60_exceptions.md R221, R224) -/

theorem ExecCase.lastop_eq {s t : State} {i : Instr} (h : ExecCase s i t) : t.lastop = opcode i := by cases h <;> rfl

theorem ExecCase.err_cases {s t : State} {i : Instr} (h : ExecCase s i t) :
    t.err = .ok ∨ t.err = .index ∨ t.err = .notree ∨ t.err = .contract := by
  cases h with
  | nop | setn | ldlen | rdlen | build | decode | discard | rdnode => exact .inl rfl
  | setnIndex | ldlenIndex | rdlenIndex | rdnodeIndex => exact .inr (.inl rfl)
  | decodeNotree | rdnodeNotree => exact .inr (.inr (.inl rfl))
  | buildContract => exact .inr (.inr (.inr rfl))

/-- The one acceptance step that leaves a result is a successful RDLEN's. -/
theorem ExecCase.of_resultValid {s t : State} {i : Instr} (h : ExecCase s i t) (hr : t.resultValid = true) :
    t.err = .ok ∧ ∃ x, i = .rdlen x := by
  cases h with
  | rdlen => exact ⟨rfl, _, rfl⟩
  | nop | setn | ldlen | build | decode | discard | rdnode => cases hr
  | setnIndex | ldlenIndex | rdlenIndex | buildContract | decodeNotree | rdnodeNotree | rdnodeIndex => cases hr

/-- No command touches NODES, NEXT_NODE, the scratch arrays or the host's side. -/
theorem ExecCase.frame {s t : State} {i : Instr} (h : ExecCase s i t) :
    t.nodes = s.nodes ∧ t.nextNode = s.nextNode ∧ t.pairs = s.pairs ∧ t.codes = s.codes ∧
      t.host = s.host ∧ t.turns = s.turns ∧ t.hostReads = s.hostReads := by
  cases h <;> exact ⟨rfl, rfl, rfl, rfl, rfl, rfl, rfl⟩

/-- Settles O22, by the outcomes of a command. -/
theorem everyCommandAnswersNext : Obligations.EveryCommandAnswersNext := by
  unfold Obligations.EveryCommandAnswersNext
  intro i s
  obtain ⟨t, ht, hcase⟩ := exec_case s i
  obtain ⟨hnodes, hnext, hpairs, hcodes, hhost, hturns, hreads⟩ := hcase.frame
  exact ⟨t, ht, hcase.lastop_eq, hcase.err_cases, hcase.of_resultValid, hcase.cfg_eq, fun a => by rw [hnodes], hnext,
    hpairs, hcodes, hcase.source_eq, hhost, hturns, hreads⟩

/-! ### OVERRUN (60_exceptions.md R223) -/

/-- A step that clears OVERRUN is the reset input or an accepted NOP. -/
theorem step_overrun_cases {s t : State} (hstep : step s = .next t) (hs : s.overrun = true) (ht : t.overrun = false) :
    ResetNext s ∨ (s.st = .idle ∧ ∃ rest, WritesCommand s 0x00000000#32 rest) := by
  have hne : t.overrun ≠ s.overrun := by simp [hs, ht]
  cases step_cases hstep with
  | reset hr => exact .inl ⟨_, hr⟩
  | complete hb _ => exact absurd (by rw [hb.buildComplete_frame]) hne
  | traverse hb _ => exact absurd (by rw [hb.traverse_frame]) hne
  | read hn v => exact absurd hn.overrun_eq hne
  | poll hn => exact absurd hn.overrun_eq hne
  | ignored hn => exact absurd hn.overrun_eq hne
  | overrun _ _ => cases ht
  | illegal hw _ _ => exact absurd hw.overrun_eq hne
  | @command w i rest _ hw hst hd he =>
    by_cases hi : i = .nop
    · subst hi
      rw [decodeWord_eq_nop_iff.mp hd] at hw
      exact .inr ⟨hst, rest, hw⟩
    · exact absurd ((he.overrun_eq hi).trans hw.overrun_eq) hne
  | nothing _ => exact absurd rfl hne

/-- Settles O9: a busy block drops the word, and the inversion of the step says what clears OVERRUN. -/
theorem busyWriteDroppedOverrunSticky : Obligations.BusyWriteDroppedOverrunSticky := by
  unfold Obligations.BusyWriteDroppedOverrunSticky
  refine ⟨fun s rest w hst h => ?_, fun s t => step_overrun_cases⟩
  rw [← h.st_eq] at hst
  exact (step_writesCommand h).trans (writeCommand_busy hst)

/-! ### HALTED (60_exceptions.md R222) -/

/-- A command that raises CONTRACT halts the block. -/
theorem ExecCase.st_of_contract {s t : State} {i : Instr} (h : ExecCase s i t) (herr : t.err = .contract) :
    t.st = .halted := by
  cases h with
  | buildContract => rfl
  | nop | setn | ldlen | rdlen | build | decode | discard | rdnode => cases herr
  | setnIndex | ldlenIndex | rdlenIndex | decodeNotree | rdnodeNotree | rdnodeIndex => cases herr

theorem TraverseCase.err_cases {s t : State} (h : TraverseCase s t) : t.err = s.err ∨ t.err = .trunc := by
  cases h with
  | eos => exact .inr rfl
  | leaf | child | pending => exact .inl rfl

theorem buildComplete_err_cases (s : State) :
    s.buildComplete.err = s.err ∨ s.buildComplete.err = .empty ∨ s.buildComplete.err = .equal := by
  rcases buildComplete_commits s with ⟨-, -, herr⟩ | ⟨herr, -, -⟩
  · exact .inl herr
  · exact .inr herr

/-- A step that raises CONTRACT enters HALTED: it accepts a BUILD. -/
theorem step_st_of_contract {s t : State} (hstep : step s = .next t) (hs : s.err ≠ .contract)
    (ht : t.err = .contract) : t.st = .halted := by
  have hraised : t.err ≠ s.err := fun h => hs (h.symm.trans ht)
  cases step_cases hstep with
  | reset _ => cases ht
  | @complete rest hb _ =>
    have herr := buildComplete_err_cases rest
    rw [hb.err_eq, ht] at herr
    simp [hs.symm] at herr
  | @traverse rest hb _ =>
    have herr := (traverse_case rest).err_cases
    rw [hb.err_eq, ht] at herr
    simp [hs.symm] at herr
  | read hn v => exact absurd hn.err_eq hraised
  | poll hn => exact absurd hn.err_eq hraised
  | ignored hn => exact absurd hn.err_eq hraised
  | overrun hw _ => exact absurd hw.err_eq hraised
  | illegal _ _ _ => cases ht
  | command _ _ _ he => exact he.st_of_contract ht
  | nothing _ => exact absurd rfl hraised

/-- No row of the table of transitions leaves HALTED but reset's. -/
theorem step_of_halted {s t : State} (hst : s.st = .halted) (hstep : step s = .next t) :
    t.st = .halted ∨ ResetNext s := by
  by_cases hkept : t.st = s.st
  · exact .inl (hkept.trans hst)
  · have hrow := controlTransitions s t hstep hkept
    simp only [hst, reduceCtorEq, false_and, false_or] at hrow
    exact .inr hrow.2

/-- Settles O10: CONTRACT is raised by BUILD's acceptance alone, and in HALTED only the host's reads and reset act. -/
theorem haltedDropsCommandsUntilReset : Obligations.HaltedDropsCommandsUntilReset := by
  unfold Obligations.HaltedDropsCommandsUntilReset
  refine ⟨fun s t => step_st_of_contract, fun s hst => ?_⟩
  have hb : s.st.busy = false := by rw [hst]; rfl
  have hh : s.st.isHalted = true := by rw [hst]; rfl
  obtain ⟨hbusy, -, -, hhalted, -⟩ := statusWord_flags s
  refine ⟨fun w rest h => ?_, fun k rest hk h => ?_, hhalted.trans hh, hbusy.trans hb, fun t => step_of_halted hst,
    fun hturns hhost => ?_⟩
  · exact (step_writesCommand h).trans (writeCommand_halted (h.st_eq.trans hst))
  · rw [step_memRead hk h, State.hostGets, h.hostReads_eq]
  · rw [step_of_nothing_listed hb hturns hhost, if_pos hh]

/-! ### What a build depends on (60_exceptions.md R226, 20_memory.md R71) -/

/-- The codes follow from N and the first N lengths, where these are written. -/
theorem sortedCodes_congr {s s' : State} (hn : s'.nsym = s.nsym) (hw : LensWritten s)
    (hlen : ∀ i < s.nsym.toNat, Memory.read s'.len i = Memory.read s.len i) : sortedCodes s' = sortedCodes s := by
  have hpairs : (readPairs s'.len s.nsym.toNat 0 s'.draws).1 = (readPairs s.len s.nsym.toNat 0 s.draws).1 :=
    readPairs_congr s.len s'.len s.nsym.toNat 0 s.draws s'.draws (fun j _ hj => hw j (by omega))
      fun j _ hj => hlen j (by omega)
  simp only [sortedCodes, storedCodes, State.sortedPairs, hn, hpairs]

/-- Partition answers the same, and allocates as many nodes, whatever the node array holds. -/
theorem buildPartition_congr {s s' : State} (hc : sortedCodes s' = sortedCodes s) :
    (buildPartition s').1 = (buildPartition s).1 ∧ (buildPartition s').2.next = (buildPartition s).2.next := by
  rw [buildPartition, buildPartition, hc]
  exact partition_indep 32 (sortedCodes s) { nodes := s'.nodes, next := 0 } { nodes := s.nodes, next := 0 } rfl

/-- Two completion steps with the same codes have the same outcome and node count. -/
theorem buildComplete_congr {s s' : State} (hc : sortedCodes s' = sortedCodes s) (hv : s'.treeValid = s.treeValid)
    (herr : s'.err = s.err) :
    s'.buildComplete.treeValid = s.buildComplete.treeValid ∧ s'.buildComplete.err = s.buildComplete.err ∧
      s'.buildComplete.nextNode = s.buildComplete.nextNode := by
  obtain ⟨hans, hnext⟩ := buildPartition_congr hc
  cases hp : (buildPartition s).1 with
  | node n => rw [buildComplete_ok s hp, buildComplete_ok s' (hans.trans hp)]; exact ⟨rfl, herr, hnext⟩
  | failed e => rw [buildComplete_failed s hp, buildComplete_failed s' (hans.trans hp)]; exact ⟨hv, rfl, hnext⟩

/-- A build that leaves a tree had distinct codes (41_build.md R143). -/
theorem codesDistinct_of_treeValid {s : State} (hv : s.treeValid = false) (h2 : 2 ≤ s.nsym.toNat)
    (ht : s.buildComplete.treeValid = true) : CodesDistinct s := by
  by_contra hd
  simp [(buildComplete_of_not_distinct hv h2 hd).1] at ht

/-- Two completion steps with the same distinct codes leave the same tree. -/
theorem buildComplete_nodes_congr {s s' : State} (hn : s'.nsym = s.nsym) (hc : sortedCodes s' = sortedCodes s)
    (h2 : 2 ≤ s.nsym.toNat) (hd : CodesDistinct s) :
    ∀ i < s.buildComplete.nnodes.toNat, Memory.read s'.buildComplete.nodes i = Memory.read s.buildComplete.nodes i := by
  have hd' : CodesDistinct s' := by rwa [← distinct_sortedCodes, hc, distinct_sortedCodes]
  obtain ⟨hroot, htree⟩ := buildPartition_tree s h2 hd
  obtain ⟨hroot', htree'⟩ := buildPartition_tree s' (by rwa [hn]) hd'
  rw [hc] at htree'
  rw [buildComplete_ok s hroot, buildComplete_ok s' hroot']
  exact fun i hi => htree.unique htree' i i.zero_le hi

/-- Settles O44: N and the lengths give the codes, and the codes give the outcome, the node count and the tree. -/
theorem buildDependsOnLengthsOnly : Obligations.BuildDependsOnLengthsOnly := by
  unfold Obligations.BuildDependsOnLengthsOnly
  intro s s' rest rest' hst hst' h2 hn hv hv' hok hok' hw hlen hb hb'
  have hc := sortedCodes_congr hn hw hlen
  obtain ⟨htree, herr, hnext⟩ := buildComplete_congr hc (hv'.trans hv.symm) (hok'.trans hok.symm)
  exact ⟨_, _, hb.step_building hst, hb'.step_building hst', htree, herr, hnext,
    fun ht => buildComplete_nodes_congr hn hc h2 (codesDistinct_of_treeValid hv h2 ht)⟩

end Sys2Proof.Machine
end

namespace Sys2Proof.Machine

/-! ### The reset input and the state after reset (70_reset_and_hazards.md R260, R261) -/

@[simp] theorem Memory.read_nil {α : Type} (i : Nat) : Memory.read ([] : List (Nat × α)) i = none := rfl

/-- R260: "STATUS therefore reads 0x00000000 after reset". -/
theorem State.reset_statusWord : State.reset.statusWord = 0 := by decide

/-- The reset input clears every field that STATUS shows. -/
@[simp] theorem State.resetInput_statusWord (s : State) : s.resetInput.statusWord = 0 := State.reset_statusWord

/-- ID shows the parameters only, which the reset input leaves as they are. -/
@[simp] theorem State.resetInput_idWord (s : State) : s.resetInput.idWord = s.idWord := rfl

/-- Settles O15: the step is the reset input, whatever st is, and each item is a law of `resetInput`; ID reads the
parameters, which dropping the turn keeps. -/
theorem resetInputResetsBlock : Obligations.ResetInputResetsBlock := by
  unfold Obligations.ResetInputResetsBlock
  intro s ts hturns
  have hid : ({ s with turns := ts } : State).idWord = s.idWord := rfl
  refine ⟨_, step_resetNext hturns, ?_⟩
  simp [hid]

/-- Settles O16: STATUS and ID are computed from the reset values, and the empty arrays have no written entry. -/
theorem resetState : Obligations.ResetState := by
  unfold Obligations.ResetState
  have hid : State.reset.idWord = 0x01200102#32 := by decide
  exact ⟨rfl, State.reset_statusWord, rfl, rfl, rfl, rfl, rfl, rfl, rfl, rfl, hid, Memory.read_nil, Memory.read_nil⟩

end Sys2Proof.Machine

section
/-! The invariant: it holds after reset, and each outcome of a step keeps it. -/

namespace Sys2Proof.Machine

/-- A block that is not HALTED and has no error meets HALTED's clause of the invariant (60_exceptions.md R222). -/
theorem halted_iff_of_ok {c : Ctl} {code : ErrCode} (hc : c ≠ .halted) (hok : code = .ok) :
    c = .halted ↔ code = .contract :=
  iff_of_false hc (by rw [hok]; decide)

/-! ### Reset (70_reset_and_hazards.md R260) -/

/-- The invariant asks of the fields that the reset input leaves only that the parameters be legal. -/
theorem inv_resetInput {s : State} (hcfg : s.cfg.WellFormed) : Inv s.resetInput where
  config := hcfg
  len_wf := rfl
  len_below := rfl
  nodes_wf := rfl
  nodes_below := rfl
  nsym_legal := Nat.zero_le _
  no_tree _ := rfl
  tree_next := nofun
  tree_filled := nofun
  tree_closed := nofun
  building := nofun
  decoding := nofun
  halted := halted_iff_of_ok nofun rfl
  result := nofun
  never_empty := nofun
  bitcnt_le := Nat.zero_le _
  scratch := ⟨rfl, rfl⟩

/-- Settles O51: the state after reset is what the reset input leaves of itself, and its parameters are legal. -/
theorem invariantAtReset : Obligations.InvariantAtReset := by
  unfold Obligations.InvariantAtReset
  have hcfg : State.reset.cfg.WellFormed := by decide
  exact inv_resetInput hcfg

/-! ### What a step takes off, and the shared operations -/

theorem HostNext.inv {s rest : State} {op : HostOp} (h : HostNext s op rest) (hinv : Inv s) : Inv rest := by
  rw [h.rest_eq]
  exact { hinv with }

theorem BlockNext.inv {s rest : State} (h : BlockNext s rest) (hinv : Inv s) : Inv rest := by
  rw [h.rest_eq]
  exact { hinv with }

/-- An error leaves neither a BUILD nor a DECODE running (60_exceptions.md R221). -/
theorem ctlAfter_ne_busy (code : ErrCode) : ctlAfter code ≠ .building ∧ ctlAfter code ≠ .decoding := by
  cases code <;> exact ⟨nofun, nofun⟩

theorem ctlAfter_eq_halted_iff (code : ErrCode) : ctlAfter code = .halted ↔ code = .contract := by
  cases code <;> simp [ctlAfter]

/-- Every error but EMPTY may be raised, once acceptance has cleared RESULT_VALID. -/
theorem Inv.raise {s : State} (hinv : Inv s) (hresult : s.resultValid = false) {code : ErrCode}
    (hcode : code ≠ .empty) : Inv (s.raise code) :=
  { hinv with
    building := fun h => absurd h (ctlAfter_ne_busy code).1
    decoding := fun h => absurd h (ctlAfter_ne_busy code).2
    halted := ctlAfter_eq_halted_iff code
    result := fun h => by cases hresult.symm.trans h
    never_empty := hcode }

/-- Acceptance, in IDLE, where neither a BUILD nor a DECODE runs. -/
theorem Inv.accept {s : State} (hinv : Inv s) (hst : s.st = .idle) (op : BitVec 4) : Inv (s.accept op) :=
  { hinv with
    building := fun h => by cases hst.symm.trans h
    decoding := fun h => by cases hst.symm.trans h
    halted := halted_iff_of_ok (fun h => by cases hst.symm.trans h) rfl
    result := nofun
    never_empty := nofun }

/-- An accepted command that ends in an error. -/
theorem Inv.accept_raise {s : State} (hinv : Inv s) (hst : s.st = .idle) (op : BitVec 4) {code : ErrCode}
    (hcode : code ≠ .empty) : Inv ((s.accept op).raise code) :=
  (hinv.accept hst op).raise rfl hcode

/-- The tree may be dropped while no DECODE walks it. -/
theorem Inv.dropTree {s : State} (hinv : Inv s) (hst : s.st = .idle) : Inv s.dropTree :=
  { hinv with
    no_tree := fun _ => rfl
    tree_next := nofun
    tree_filled := nofun
    tree_closed := nofun
    building := fun h => by cases hst.symm.trans h
    decoding := fun h => by cases hst.symm.trans h }

/-! ### The acceptance step of each command -/

/-- SETN with a count in range: NSYM is that count, which fits 16 bits. -/
theorem Inv.setn {s : State} (hinv : Inv s) (hst : s.st = .idle) {n : Nat} (hn : n ≤ s.cfg.nsymMax) :
    Inv { s.accept 0x1#4 with nsym := BitVec.ofNat 16 n } :=
  { hinv.accept hst 0x1#4 with
    nsym_legal := (toNat_ofNat_of_xFits (xFits_iff_le.mpr (hn.trans hinv.config.2))).trans_le hn
    building := fun h => by cases hst.symm.trans h }

/-- LDLEN with an index in range keeps LEN canonical and within its NSYM_MAX entries. -/
theorem Inv.ldlen {s : State} (hinv : Inv s) (hst : s.st = .idle) {i : Nat} (hi : i < s.cfg.nsymMax) (v : Byte) :
    Inv ((s.accept 0x2#4).writeLen i v) :=
  { hinv.accept hst 0x2#4 with
    len_wf := Memory.wf_write s.len i v hinv.len_wf
    len_below := Memory.below_write s.cfg.nsymMax s.len i v hinv.len_below hi }

/-- RDLEN leaves its result in IDLE with ERR = OK. -/
theorem Inv.rdlen {s : State} (hinv : Inv s) (hst : s.st = .idle) (i : Nat) (v : Half) :
    Inv (((s.accept 0x3#4).afterReadLen i).setResult v) :=
  { hinv.accept hst 0x3#4 with
    building := fun h => by cases hst.symm.trans h
    decoding := fun h => by cases hst.symm.trans h
    result := fun _ => ⟨hst, rfl, .inl rfl⟩ }

/-- BUILD begins without a tree and without an error (41_build.md R130). -/
theorem Inv.build {s : State} (hinv : Inv s) (hst : s.st = .idle) (h2 : 2 ≤ s.nsym.toNat) :
    Inv { (s.accept 0x4#4).dropTree with st := .building } :=
  { (hinv.accept hst 0x4#4).dropTree hst with
    building := fun _ => ⟨h2, rfl, rfl, rfl, rfl⟩
    decoding := nofun
    halted := halted_iff_of_ok nofun rfl
    result := nofun }

/-- DECODE begins at the root, from which a leaf is reached within 32 bits (42_decode.md R180). -/
theorem Inv.decode {s : State} (hinv : Inv s) (hst : s.st = .idle) (hv : s.treeValid = true) :
    Inv { s.accept 0x5#4 with cur := 0, bitcnt := 0, st := .decoding } :=
  { hinv.accept hst 0x5#4 with
    building := nofun
    decoding := fun _ => ⟨hv, rfl, rfl, rfl, Nat.zero_lt_succ 31, hinv.tree_closed hv⟩
    halted := halted_iff_of_ok nofun rfl
    result := nofun
    bitcnt_le := Nat.zero_le _ }

/-- Every outcome of a command that an idle block accepts keeps the invariant. -/
theorem ExecCase.inv {s t : State} {i : Instr} (h : ExecCase s i t) (hinv : Inv s) (hst : s.st = .idle) : Inv t := by
  cases h with
  | nop => exact { hinv.accept hst 0x0#4 with }
  | setn hn => exact hinv.setn hst hn
  | ldlen hi => exact hinv.ldlen hst hi _
  | rdlen => exact hinv.rdlen hst _ _
  | build h2 => exact hinv.build hst h2
  | buildContract => exact ((hinv.accept hst 0x4#4).dropTree hst).raise rfl (by decide)
  | decode hv => exact hinv.decode hst hv
  | discard => exact (hinv.accept hst 0x6#4).dropTree hst
  | rdnode => exact { hinv.accept hst 0x7#4 with }
  | setnIndex | ldlenIndex | rdlenIndex | decodeNotree | rdnodeNotree | rdnodeIndex =>
    exact hinv.accept_raise hst _ (by decide)

/-! ### The completion step of BUILD (41_build.md R141 to R145) -/

/-- Partition leaves NODES canonical and within its NODE_CAP entries (R142), and no tree refers to them yet. -/
theorem Inv.storePartition {s : State} (hinv : Inv s) (hst : s.st = .building) :
    Inv { s with
      nextNode := (buildPartition s).2.next, nodes := (buildPartition s).2.nodes, draws := s.formPairs.draws,
      pairs := [], codes := [] } := by
  obtain ⟨h2, hv, -, -, -⟩ := hinv.building hst
  have hgrown := (buildPartition_grown s h2).1
  have hroom : (buildPartition s).2.next.toNat ≤ s.cfg.nodeCap := by
    have hbound := hgrown.bound
    have hlegal := hinv.nsym_legal
    have hzero : (0 : Half).toNat = 0 := rfl
    dsimp only [Config.nodeCap] at hbound ⊢
    omega
  exact
    { hinv with
      nodes_wf := hgrown.wf hinv.nodes_wf
      nodes_below := hgrown.below s.cfg.nodeCap hroom hinv.nodes_below
      tree_next := fun h => by cases hv.symm.trans h
      tree_filled := fun h => by cases hv.symm.trans h
      tree_closed := fun h => by cases hv.symm.trans h
      decoding := fun h => by cases hst.symm.trans h
      scratch := ⟨rfl, rfl⟩ }

/-- With distinct codes, the nodes that BuildTree leaves are a filled tree in which 32 bits reach a leaf. -/
theorem buildPartition_filled_closed {s : State} (h2 : 2 ≤ s.nsym.toNat) (hd : CodesDistinct s) :
    NodesFilled (buildPartition s).2.nodes (buildPartition s).2.next.toNat ∧
      closedWithin (buildPartition s).2.nodes (buildPartition s).2.next.toNat 32 0 = true := by
  obtain ⟨-, htree⟩ := buildPartition_tree s h2 hd
  have hcount := htree.hi_eq
  rw [sortedCodes_length] at hcount
  have h2' : 2 ≤ (sortedCodes s).length := by rwa [sortedCodes_length]
  have hsymbols : ∀ x ∈ sortedCodes s, x.symbol.toNat ≤ (buildPartition s).2.next.toNat := by
    intro x hx
    have hlt := symbol_lt_of_mem_sortedCodes hx
    omega
  exact ⟨fun i hi => htree.filled h2' hsymbols (le_refl _) i (Nat.zero_le i) hi,
    htree.closedWithin h2' (le_refl _) rfl⟩

/-- A completion commits a filled and closed tree, or raises EQUAL and leaves no tree. -/
theorem Inv.buildComplete {s : State} (hinv : Inv s) (hst : s.st = .building) : Inv s.buildComplete := by
  have hstored := hinv.storePartition hst
  obtain ⟨h2, hv, hok, hresult, -⟩ := hinv.building hst
  by_cases hd : CodesDistinct s
  · obtain ⟨hfilled, hclosed⟩ := buildPartition_filled_closed h2 hd
    rw [buildComplete_ok s (buildPartition_tree s h2 hd).1]
    exact
      { hstored with
        no_tree := nofun
        tree_next := fun _ => rfl
        tree_filled := fun _ => hfilled
        tree_closed := fun _ => hclosed
        building := nofun
        decoding := nofun
        halted := halted_iff_of_ok nofun hok
        result := fun h => by cases hresult.symm.trans h }
  · rw [buildComplete_failed s (buildPartition_equal s h2 hd)]
    exact hstored.raise hresult (by decide)

/-! ### The traversal step of DECODE (42_decode.md R182 to R188) -/

/-- The bit just taken is counted, and where it selects a node, that node is one bit nearer to a leaf. -/
theorem TraverseCase.inv {s t : State} (h : TraverseCase s t) (hinv : Inv s) (hst : s.st = .decoding) : Inv t := by
  obtain ⟨hv, hok, hresult, hlastop, hroom, hclosed⟩ := hinv.decoding hst
  have hcount := bitcnt_succ hroom
  cases h with
  | pending => exact hinv
  | eos => exact hinv.raise hresult (code := .trunc) (by decide)
  | leaf =>
    exact
      { hinv with
        building := nofun
        decoding := nofun
        halted := halted_iff_of_ok nofun hok
        result := fun _ => ⟨rfl, hok, .inr hlastop⟩
        bitcnt_le := hcount.trans_le hroom }
  | child b _ hs =>
    obtain ⟨k, d, hk, -, hd, hslots⟩ := closedWithin_cases hclosed
    rw [← nodeAt_of_read hd] at hslots
    have hnext := (hslots b).resolve_left hs
    obtain ⟨j, -, hj, -⟩ := closedWithin_cases hnext
    have hleft : k = 32 - (s.bitcnt + 1).toNat := by omega
    exact
      { hinv with
        decoding := fun _ => ⟨hv, hok, hresult, hlastop, by dsimp only; omega, hleft ▸ hnext⟩
        bitcnt_le := hcount.trans_le hroom }

/-! ### The step -/

/-- Settles O52, by the inversion of the step: each of its cases keeps the invariant. -/
theorem stepKeepsInvariant : Obligations.StepKeepsInvariant := by
  unfold Obligations.StepKeepsInvariant
  intro s t hinv hstep
  cases step_cases hstep with
  | reset _ => exact inv_resetInput hinv.config
  | complete hb hst => exact (hb.inv hinv).buildComplete (hb.st_eq.trans hst)
  | traverse hb hst => exact (traverse_case _).inv (hb.inv hinv) (hb.st_eq.trans hst)
  | read hn v => exact { hn.inv hinv with }
  | poll hn => exact { hn.inv hinv with }
  | ignored hn => exact hn.inv hinv
  | overrun hw _ => exact { HostNext.inv hw hinv with }
  | illegal hw hst _ => exact (HostNext.inv hw hinv).accept_raise (hw.st_eq.trans hst) _ (by decide)
  | command hw hst _ he => exact he.inv (HostNext.inv hw hinv) (hw.st_eq.trans hst)
  | nothing _ => exact { hinv with }

end Sys2Proof.Machine
end

section
/-! The vector words of the encoding, the accesses outside the port, and the worked builds. -/

namespace Sys2Proof.Machine

/-- Settles O5: each word is decoded as it stands. -/
theorem vectorWordsDecode : Obligations.VectorWordsDecode := by
  unfold Obligations.VectorWordsDecode
  decide

/-! ### Accesses outside the port (20_memory.md R62) -/

/-- An access that is not one aligned word of the window reaches no register. -/
theorem registerAt_eq_none {c : Config} {addr size : Nat}
    (h : size ≠ 4 ∨ ∀ k < 16, addr ≠ c.htbBase + 4 * k) : registerAt c addr size = none := by
  cases hr : registerAt c addr size with
  | none => rfl
  | some r =>
    obtain ⟨hsize, k, hk, haddr, -⟩ := registerAt_some hr
    rcases h with h | h
    · exact absurd hsize h
    · exact absurd haddr (h k hk)

/-- Settles O12: the host's operation runs with the same window, in which the access reaches no register. -/
theorem accessOutsidePortRefused : Obligations.AccessOutsidePortRefused := by
  unfold Obligations.AccessOutsidePortRefused
  intro s rest addr size v houtside hnext
  have hnone := registerAt_eq_none houtside
  rcases hnext with h | h
  · rw [step_hostNext h]
    simp only [runHostOp, h.cfg_eq, hnone]
  · rw [step_hostNext h]
    simp only [runHostOp, h.cfg_eq, hnone]

/-! ### Worked builds (95_test_vectors.md section 2.3) -/

/-- Settles O53: with no turn listed the step is the completion step, which is evaluated for the given lengths. -/
theorem buildWorkedExamples : Obligations.BuildWorkedExamples := by
  unfold Obligations.BuildWorkedExamples
  constructor
  · exact ⟨_, step_building ⟨rfl, .inr ⟨rfl, rfl⟩⟩ rfl, by decide⟩
  · exact ⟨_, step_building ⟨rfl, .inr ⟨rfl, rfl⟩⟩ rfl, by decide⟩

end Sys2Proof.Machine
end
